-- ==== Sys2Proof/Word.lean ====
section
/-! DEFINITION. The words of `fec_core`: a byte, a window offset, an 11-bit syndrome and a 6-bit symbol.
00_scope.md R9: every value is an unsigned bit vector. -/

namespace Sys2Proof

/-- One byte of BUF or of an 8-bit register (10_state.md R21, R23 to R28). -/
abbrev Byte := BitVec 8

/-- A 6-bit offset of the register window (20_memory.md R50, R51). -/
abbrev Offset := BitVec 6

/-- A 16-bit value: RESULT (10_state.md R26). -/
abbrev Half := BitVec 16

/-- A Golay syndrome (40_golay.md R102). -/
abbrev Syndrome := BitVec 11

/-- An element of GF(2^6), bit i the coefficient of x^i (00_scope.md R13). -/
abbrev GF64 := BitVec 6

end Sys2Proof
end

