-- ==== Sys2Proof/Syntax.lean ====
section
/-! DEFINITION. The commands of `fec_core` (30_encoding.md R77), the lines of a host program (R83), the reset
action (70_reset_and_hazards.md R230) and the pseudo-instructions a host program is written in (R84). -/

namespace Sys2Proof

/-- The sixteen legal commands, one constructor per row of the opcode table (30_encoding.md R77). No command has
an operand field (R70): its operands are bits of BUF and the registers ILV_N and ILV_D (R80). -/
inductive Instr where
  | nop
  | g2087Dec
  | g2087Enc
  | g24128Dec
  | g24128Enc
  | rs24121Dec
  | rs24169Dec
  | rs362017Dec
  | rs24121Enc
  | rs24169Enc
  | rs362017Enc
  | deinterleave
  | interleave
  | dispatchTsbk
  | dispatchTdulc
  | dispatchRcch
deriving DecidableEq, Repr

/-- The frame families a DISPATCH command reads the discriminator against (43_dispatch.md R190). -/
inductive Family where
  | tsbk
  | tdulc
  | rcch
deriving DecidableEq, Repr

/-- What the world outside the block does in one step: a line of a host program (30_encoding.md R83), or the
system asserting reset between two host accesses (70_reset_and_hazards.md R230). -/
inductive Action where
  /-- `wr OFF, BYTE`: the host writes one byte of the window. -/
  | wr (off : Offset) (value : Byte)
  /-- `rd OFF`: the host reads one byte of the window, and the trace records it. -/
  | rd (off : Offset)
  /-- `; text`: a comment line, no access. -/
  | comment (text : String)
  /-- The system asserts reset. Not a line of the host's program text. -/
  | reset
deriving DecidableEq, Repr

/-- How a program line names a window offset (30_encoding.md R83): as a number or by a register's name. -/
inductive OffsetName where
  | number (off : Offset)
  | cmd
  | status
  | resultHi
  | resultLo
  | ilvN
  | ilvD
  /-- `BUF+i` -/
  | buf (i : Nat)
deriving DecidableEq, Repr

/-- A line of a host program as it is written, the pseudo-instructions of 30_encoding.md R84 among them. -/
inductive SourceLine where
  | wr (off : OffsetName) (value : Byte)
  | rd (off : OffsetName)
  | comment (text : String)
  /-- `cmd MNEMONIC` -/
  | cmd (i : Instr)
  /-- `wrbuf i, b0 b1 … bm` -/
  | wrbuf (first : Nat) (bytes : List Byte)
  /-- `rdbuf i, m` -/
  | rdbuf (first count : Nat)
  /-- `rdres` -/
  | rdres
  /-- `rdst` -/
  | rdst
  /-- `ilv N, D` -/
  | ilv (n d : Byte)
deriving DecidableEq, Repr

/-- Every command, in the opcode table's order (30_encoding.md R77). -/
def Instr.all : List Instr :=
  [.nop, .g2087Dec, .g2087Enc, .g24128Dec, .g24128Enc, .rs24121Dec, .rs24169Dec, .rs362017Dec,
    .rs24121Enc, .rs24169Enc, .rs362017Enc, .deinterleave, .interleave, .dispatchTsbk, .dispatchTdulc,
    .dispatchRcch]

end Sys2Proof
end

