-- ==== Sys2Proof/Config.lean ====
section
/-! DEFINITION. The implementation parameters of 00_scope.md R7, with the values that rule gives them, and the one
parameter it leaves open. -/

namespace Sys2Proof.Config

/-- `BUF_BYTES` (R7, 10_state.md R21). -/
abbrev bufBytes : Nat := 27

/-- `BUF_BITS` (R7). -/
abbrev bufBits : Nat := 8 * bufBytes

/-- `ILV_MAX_BITS` (R7, 42_interleave.md R182). -/
abbrev ilvMaxBits : Nat := 216

/-- `GOLAY_GENPOL`, x^11+x^10+x^6+x^5+x^4+x^2+1 (R7, 40_golay.md R101). -/
def golayGenpol : BitVec 12 := 0xC75

/-- `GOLAY23_TOP`, x^22 (R7, 40_golay.md R103). -/
def golay23Top : BitVec 32 := 0x400000

/-- `GOLAY19_TOP`, x^18 (R7, 40_golay.md R103). -/
def golay19Top : BitVec 32 := 0x040000

/-- `GF_PRIMPOLY`, x^6+x+1 (R7, 41_reed_solomon.md R140). -/
def gfPrimpoly : BitVec 7 := 0x43

/-- `GF_ALPHA`, the element x (R7, 41_reed_solomon.md R140). -/
def gfAlpha : GF64 := 0x02

/-- `RS_FCR`: the generator's first root is alpha to this power (R7, 41_reed_solomon.md R144). -/
def rsFcr : Nat := 1

/-- `DISC_KNOWN(family, value)` (R7, 43_dispatch.md R193): the discriminator values each family knows. OPEN in
the spec, so a constant without a body: nothing can be proved of an entry, and a claim that reads one assumes it.
Log entry 3. -/
opaque discKnown : Family → BitVec 6 → Bool

end Sys2Proof.Config
end

