-- ==== Sys2Proof/WellFormed.lean ====
section
/-! DEFINITION. What makes a command and a program line well-formed. A command has no operand field
(30_encoding.md R70), so its only check is the one on its SUB field (R72); a program line names a window offset, and
the BUF lines must stay inside BUF (R83, R84). -/

namespace Sys2Proof

/-- 30_encoding.md R72: the SUB values each OP allows. OP 0xA to 0xF has none (R71). -/
def subAllowed (op sub : BitVec 4) : Bool :=
  if op = 0x0 ∨ op = 0x1 ∨ op = 0x2 ∨ op = 0x3 ∨ op = 0x4 ∨ op = 0x7 ∨ op = 0x8 then sub == 0
  else if op = 0x5 ∨ op = 0x6 ∨ op = 0x9 then sub == 0 || sub == 1 || sub == 2
  else false

/-- `BUF+i` names one of the 27 bytes (10_state.md R21); every other form names an offset by itself. -/
def OffsetName.wf : OffsetName → Bool
  | .buf i => decide (i < Config.bufBytes)
  | .number _ | .cmd | .status | .resultHi | .resultLo | .ilvN | .ilvD => true

/-- A program line is well-formed when every BUF byte it names exists, and `wrbuf` and `rdbuf` name at least one
(30_encoding.md R84: their expansions start at BUF+i and end at BUF+i+m or BUF+i+m−1). -/
def SourceLine.wf : SourceLine → Bool
  | .wr off _ => off.wf
  | .rd off => off.wf
  | .wrbuf first bytes => !bytes.isEmpty && decide (first + bytes.length ≤ Config.bufBytes)
  | .rdbuf first count => decide (0 < count) && decide (first + count ≤ Config.bufBytes)
  | .comment _ | .cmd _ | .rdres | .rdst | .ilv _ _ => true

end Sys2Proof
end

