-- ==== Sys2Proof/Decode.lean ====
section
/-! DEFINITION. Decoding a CMD byte (30_encoding.md R73), total on all 256 values, and encoding a command
(R77). -/

namespace Sys2Proof

/-- Why a CMD byte encodes no command (30_encoding.md R81). Both kinds run as 44_control.md R202 says. -/
inductive DecodeError where
  /-- OP 0xA to 0xF, with any SUB. -/
  | illegalOp (op : BitVec 4)
  /-- An OP of R71 with a SUB that R72 does not allow. -/
  | illegalSub (op sub : BitVec 4)
deriving DecidableEq, Repr

/-- The OP field, bits 7:4 (30_encoding.md R70). -/
def opField (c : Byte) : BitVec 4 := c.extractLsb' 4 4

/-- The SUB field, bits 3:0 (30_encoding.md R70). -/
def subField (c : Byte) : BitVec 4 := c.extractLsb' 0 4

/-- 30_encoding.md R73. -/
def decode (c : Byte) : Except DecodeError Instr :=
  let op := opField c
  let sub := subField c
  match op.toNat, sub.toNat with
  | 0x0, 0 => .ok .nop
  | 0x1, 0 => .ok .g2087Dec
  | 0x2, 0 => .ok .g2087Enc
  | 0x3, 0 => .ok .g24128Dec
  | 0x4, 0 => .ok .g24128Enc
  | 0x5, 0 => .ok .rs24121Dec
  | 0x5, 1 => .ok .rs24169Dec
  | 0x5, 2 => .ok .rs362017Dec
  | 0x6, 0 => .ok .rs24121Enc
  | 0x6, 1 => .ok .rs24169Enc
  | 0x6, 2 => .ok .rs362017Enc
  | 0x7, 0 => .ok .deinterleave
  | 0x8, 0 => .ok .interleave
  | 0x9, 0 => .ok .dispatchTsbk
  | 0x9, 1 => .ok .dispatchTdulc
  | 0x9, 2 => .ok .dispatchRcch
  | _, _ => if op.toNat < 0xA then .error (.illegalSub op sub) else .error (.illegalOp op)

/-- 30_encoding.md R77: the CMD value of each command. -/
def encode : Instr → Byte
  | .nop => 0x00
  | .g2087Dec => 0x10
  | .g2087Enc => 0x20
  | .g24128Dec => 0x30
  | .g24128Enc => 0x40
  | .rs24121Dec => 0x50
  | .rs24169Dec => 0x51
  | .rs362017Dec => 0x52
  | .rs24121Enc => 0x60
  | .rs24169Enc => 0x61
  | .rs362017Enc => 0x62
  | .deinterleave => 0x70
  | .interleave => 0x80
  | .dispatchTsbk => 0x90
  | .dispatchTdulc => 0x91
  | .dispatchRcch => 0x92

/-- A command is well-formed when its SUB is one its OP allows (30_encoding.md R72). -/
def Instr.wf (i : Instr) : Bool := subAllowed (opField (encode i)) (subField (encode i))

/-- A command is exactly one byte (30_encoding.md R82): the byte is decoded from a table word of `nbits` bits,
and a word with a bit above the byte encodes no command. -/
def decodeTableWord (nbits w : Nat) : Option Instr :=
  if w % 2 ^ nbits < 256 then (decode (BitVec.ofNat 8 (w % 2 ^ nbits))).toOption else none

/-- The spelling of each command (30_encoding.md R77), as letters. -/
def mnemonic : Instr → List Char
  | .nop => ['N', 'O', 'P']
  | .g2087Dec => ['G', '2', '0', '8', '7', '_', 'D', 'E', 'C']
  | .g2087Enc => ['G', '2', '0', '8', '7', '_', 'E', 'N', 'C']
  | .g24128Dec => ['G', '2', '4', '1', '2', '8', '_', 'D', 'E', 'C']
  | .g24128Enc => ['G', '2', '4', '1', '2', '8', '_', 'E', 'N', 'C']
  | .rs24121Dec => ['R', 'S', '2', '4', '1', '2', '1', '_', 'D', 'E', 'C']
  | .rs24169Dec => ['R', 'S', '2', '4', '1', '6', '9', '_', 'D', 'E', 'C']
  | .rs362017Dec => ['R', 'S', '3', '6', '2', '0', '1', '7', '_', 'D', 'E', 'C']
  | .rs24121Enc => ['R', 'S', '2', '4', '1', '2', '1', '_', 'E', 'N', 'C']
  | .rs24169Enc => ['R', 'S', '2', '4', '1', '6', '9', '_', 'E', 'N', 'C']
  | .rs362017Enc => ['R', 'S', '3', '6', '2', '0', '1', '7', '_', 'E', 'N', 'C']
  | .deinterleave => ['D', 'E', 'I', 'N', 'T', 'E', 'R', 'L', 'E', 'A', 'V', 'E']
  | .interleave => ['I', 'N', 'T', 'E', 'R', 'L', 'E', 'A', 'V', 'E']
  | .dispatchTsbk => ['D', 'I', 'S', 'P', 'A', 'T', 'C', 'H', '_', 'T', 'S', 'B', 'K']
  | .dispatchTdulc => ['D', 'I', 'S', 'P', 'A', 'T', 'C', 'H', '_', 'T', 'D', 'U', 'L', 'C']
  | .dispatchRcch => ['D', 'I', 'S', 'P', 'A', 'T', 'C', 'H', '_', 'R', 'C', 'C', 'H']

/-- The command a mnemonic names, whatever the case of its letters (30_encoding.md R84). -/
def ofMnemonic (letters : List Char) : Option Instr :=
  Instr.all.find? fun i => mnemonic i == letters.map Char.toUpper

end Sys2Proof
end

