-- ==== Sys2Proof/Machine/State.lean ====
section
/-! DEFINITION. The state of `fec_core` and of the host program that drives it, as plain data (10_state.md R20,
R34; 30_encoding.md R83, R85), the reasons a step can stop, and the state after reset (10_state.md R35,
70_reset_and_hazards.md R231). -/

namespace Sys2Proof.Machine

/-- The model faults of 10_state.md R22. -/
inductive Fault where
  /-- `UnwrittenRead(i)`: the host read BUF[i], or a command needed it, and nothing has written it. Raised by a
  host read and by the operand check of 30_encoding.md R76. Safe: the spec gives the read no value. -/
  | unwrittenRead (i : Nat)
deriving DecidableEq, Repr

/-- Reasons to refuse an instruction. No command is refused. -/
inductive Refusal where
  /-- Raised by a refused arm of `exec` for an instruction without a meaning. There is none. Safe. -/
  | notModelled (mnemonic : String)
deriving DecidableEq, Repr

/-- BUF with its written marks (10_state.md R21, R22): the written bytes, by index, addresses strictly rising.
An index that is not listed is unwritten and has no value. -/
abbrev Memory := List Host.Cell

/-- The state of 10_state.md R34 (the first seven fields; `buf` holds both BUF and `written`), and the host's
program, position and trace (30_encoding.md R83, R85). -/
structure State where
  /-- BUF[0..26] and the written marks (R21, R22). -/
  buf : Memory
  /-- CMD (R23). -/
  cmd : Byte
  /-- STATUS (R24). -/
  status : Byte
  /-- RESULT (R26). -/
  result : Half
  /-- ILV_N (R27). -/
  ilvN : Byte
  /-- ILV_D (R28). -/
  ilvD : Byte
  /-- The model's record of a fault (R34). -/
  faulted : Option Fault
  /-- The host's actions, in order (30_encoding.md R83). -/
  program : List Action
  /-- The index of the host's next line (30_encoding.md R85). -/
  line : Nat
  /-- The values the host's `rd` lines returned, oldest first (30_encoding.md R83). -/
  trace : List (Offset × Byte)
deriving DecidableEq, Repr

/-- The reset values of 10_state.md R35, with no host program loaded (log entry 1). -/
def State.reset : State where
  buf := []
  cmd := 0x00
  status := 0x00
  result := 0x0000
  ilvN := 0x00
  ilvD := 0x00
  faulted := none
  program := []
  line := 0
  trace := []

/-- The outcome of a command or of a host access. -/
abbrev Outcome := Host.Outcome State Fault Refusal

end Sys2Proof.Machine
end

