-- ==== Sys2Proof/Machine/Flags.lean ====
section
/-! DEFINITION. The STATUS register's bits and the one rule that writes them (10_state.md R24, R25). -/

namespace Sys2Proof.Machine

/-- 10_state.md R25: STATUS = {5'b00000, HIT, FAIL, ILLEGAL}. -/
def statusByte (hit fail illegal : Bool) : Byte :=
  0#5 ++ BitVec.ofBool hit ++ BitVec.ofBool fail ++ BitVec.ofBool illegal

/-- STATUS of a command that sets no bit. -/
def statusNone : Byte := statusByte false false false

/-- STATUS with ILLEGAL set (44_control.md R202). -/
def statusIllegal : Byte := statusByte false false true

/-- STATUS with FAIL set (41_reed_solomon.md R161). -/
def statusFail : Byte := statusByte false true false

/-- STATUS of a DISPATCH command (43_dispatch.md R192). -/
def statusHit (known : Bool) : Byte := statusByte known false false

/-- Bit 0 of STATUS (10_state.md R24). -/
def State.illegalFlag (s : State) : Bool := s.status.getLsbD 0

/-- Bit 1 of STATUS (10_state.md R24). -/
def State.failFlag (s : State) : Bool := s.status.getLsbD 1

/-- Bit 2 of STATUS (10_state.md R24). -/
def State.hitFlag (s : State) : Bool := s.status.getLsbD 2

end Sys2Proof.Machine
end

