-- ==== Sys2Proof/Machine/Ops.lean ====
section
/-! DEFINITION. The operations every command and every host access is made of: reading and writing a byte of BUF,
the operand check of 30_encoding.md R76, the end of a command (44_control.md R201), the illegal command (R202) and
reset (70_reset_and_hazards.md R231). The hardware takes no exception (60_exceptions.md R212, R220), so there is none
to take or to return from: R202's signal is the only thing that stands in an exception's place. -/

namespace Sys2Proof.Machine

/-- The byte a written index holds; none for an unwritten one (10_state.md R22). -/
def Memory.read : Memory → Nat → Option Byte
  | [], _ => none
  | (b, w) :: m, a => if a = b then some w else Memory.read m a

/-- Writing a byte sets its mark (10_state.md R22) and keeps the indices rising. -/
def Memory.write : Memory → Nat → Byte → Memory
  | [], a, v => [(a, v)]
  | (b, w) :: m, a, v =>
    if a < b then (a, v) :: (b, w) :: m
    else if a = b then (a, v) :: m
    else (b, w) :: Memory.write m a v

/-- The canonical form: indices strictly rising, each one of BUF's (10_state.md R21). A written byte may hold
any value, so no value is barred: what an unlisted index reads as is no value at all. -/
abbrev Memory.wf (m : Memory) : Prop :=
  m.Pairwise (fun x y => x.1 < y.1) ∧ ∀ c ∈ m, c.1 < Config.bufBytes

/-- BUF[i], if it is written. -/
def State.byte? (s : State) (i : Nat) : Option Byte := s.buf.read i

/-- The mark `written[i]` (10_state.md R22). -/
def State.written (s : State) (i : Nat) : Bool := (s.byte? i).isSome

/-- `BUF[i] <- v`. -/
def State.setByte (s : State) (i : Nat) (v : Byte) : State := { s with buf := s.buf.write i v }

/-- Writes bytes to BUF[i], BUF[i+1], …. -/
def State.setBytes (s : State) : Nat → List Byte → State
  | _, [] => s
  | i, b :: bs => (s.setByte i b).setBytes (i + 1) bs

/-- BUF[0] … BUF[n−1], or the lowest of these indices that is unwritten (30_encoding.md R76). -/
def State.readBytes (s : State) : Nat → Except Nat (List Byte)
  | 0 => .ok []
  | n + 1 =>
    match s.readBytes n with
    | .error i => .error i
    | .ok bs =>
      match s.byte? n with
      | some b => .ok (bs ++ [b])
      | none => .error n

/-- 30_encoding.md R76: a command that needs BUF[0] … BUF[n−1] reads them before it writes anything, and faults on
the lowest one that is unwritten. Given them, it completes (70_reset_and_hazards.md R242). -/
def State.withOperands (s : State) (n : Nat) (run : List Byte → State) : Outcome :=
  match s.readBytes n with
  | .ok bs => .next (run bs)
  | .error i => .fault (.unwrittenRead i)

/-- The end of every command: STATUS and RESULT are written (10_state.md R25, R26; 44_control.md R201). -/
def State.complete (s : State) (status : Byte) (result : Half) : State :=
  { s with status := status, result := result }

/-- 44_control.md R202. -/
def State.signalIllegal (s : State) : State := s.complete statusIllegal 0x0000

/-- 70_reset_and_hazards.md R231: the block's reset. The host's program, its position and its trace are outside
the block and stay (log entry 1). -/
def State.resetBlock (s : State) : State :=
  { s with
    buf := [], cmd := 0x00, status := 0x00, result := 0x0000, ilvN := 0x00, ilvD := 0x00, faulted := none }

/-- 10_state.md R34: the record a fault leaves. Once set it stays for the rest of the run. -/
def State.recordFault (s : State) (r : Fault) : State :=
  { s with faulted := some (s.faulted.getD r) }

/-- A host program is loaded from outside the machine, and the host stands at its first line (log entry 2). -/
def State.loadProgram (s : State) (program : List Action) : State := { s with program := program, line := 0 }

/-- The host moves to its next line (30_encoding.md R85). -/
def State.nextLine (s : State) : State := { s with line := s.line + 1 }

/-- An `rd` line's value goes to the trace (30_encoding.md R83). -/
def State.record (s : State) (off : Offset) (v : Byte) : State :=
  { s with trace := s.trace ++ [(off, v)] }

end Sys2Proof.Machine
end

