-- ==== Sys2Proof/Machine/Operands.lean ====
section
/-! DEFINITION. The bit fields of BUF (00_scope.md R10) and the table of what each command reads and writes
(30_encoding.md R80). -/

namespace Sys2Proof.Machine

/-- The bit at offset o of a byte sequence: bit 7 − (o mod 8) of byte o div 8 (00_scope.md R10). -/
def bufBit (bytes : List Byte) (o : Nat) : Bool := (bytes.getD (o / 8) 0).getMsbD (o % 8)

/-- `BufRead(o, w)` (00_scope.md R10) of the bits a function of the offset gives: the bit at offset o is the most
significant one. -/
def readBits (bit : Nat → Bool) (o : Nat) : (w : Nat) → BitVec w
  | 0 => 0#0
  | w + 1 => (readBits bit o w).concat (bit (o + w))

/-- `BufRead(o, w)` (00_scope.md R10) on BUF[0], BUF[1], …. Used only on offsets the bytes cover. -/
def bufRead (bytes : List Byte) (o w : Nat) : BitVec w := readBits (bufBit bytes) o w

/-- `BufWrite(o, w, v)` (00_scope.md R10) on the bits a function of the offset gives: the w bits from offset o become
v's, and no other bit changes. -/
def bufWrite {w : Nat} (bit : Nat → Bool) (o : Nat) (v : BitVec w) (p : Nat) : Bool :=
  if o ≤ p ∧ p < o + w then v.getMsbD (p - o) else bit p

/-- The bytes of index `first`, …, `first + count − 1` of the bits a function of the offset gives. -/
def bytesOf (bit : Nat → Bool) (first count : Nat) : List Byte :=
  (List.range count).map fun i => readBits bit (8 * (first + i)) 8

/-- Symbol j of a Reed-Solomon codeword is BufRead(6j, 6); these are symbols 0 … n−1 (41_reed_solomon.md R146). -/
def readSymbols (bytes : List Byte) (n : Nat) : List GF64 :=
  (List.range n).map fun j => bufRead bytes (6 * j) 6

/-- `BufWrite(6j, 6, c[j])` for the symbols of a list, the first of them symbol j (41_reed_solomon.md R146, R149,
R165). -/
def writeSymbols (bit : Nat → Bool) : Nat → List GF64 → Nat → Bool
  | _, [] => bit
  | j, c :: cs => writeSymbols (bufWrite bit (6 * j) c) (j + 1) cs

/-- 42_interleave.md R182, with ILV_MAX_BITS = 216. -/
def ilvLegal (n d : Nat) : Bool := decide (1 ≤ n ∧ n ≤ Config.ilvMaxBits ∧ 1 ≤ d ∧ n % d = 0)

/-- The pair (ILV_N, ILV_D) is legal (42_interleave.md R182). -/
def State.ilvLegal (s : State) : Bool := Sys2Proof.Machine.ilvLegal s.ilvN.toNat s.ilvD.toNat

/-- ⌈ILV_N/8⌉, the bytes an interleave command touches (30_encoding.md R80). -/
def State.ilvBytes (s : State) : Nat := (s.ilvN.toNat + 7) / 8

/-- 30_encoding.md R80, "bytes that must be written": how many bytes of BUF, from BUF[0] on, the command needs. -/
def operandBytes (i : Instr) (s : State) : Nat :=
  match i with
  | .nop => 0
  | .g2087Dec => 3
  | .g2087Enc => 1
  | .g24128Dec => 3
  | .g24128Enc => 2
  | .rs24121Dec => 18
  | .rs24169Dec => 18
  | .rs362017Dec => 27
  | .rs24121Enc => 9
  | .rs24169Enc => 12
  | .rs362017Enc => 15
  | .deinterleave => if s.ilvLegal then s.ilvBytes else 0
  | .interleave => if s.ilvLegal then s.ilvBytes else 0
  | .dispatchTsbk => 1
  | .dispatchTdulc => 1
  | .dispatchRcch => 1

/-- 30_encoding.md R80, "reads": the bits of BUF, from offset 0 on, that the command's result may depend on. -/
def operandBits (i : Instr) (s : State) : Nat :=
  match i with
  | .nop => 0
  | .g2087Dec => 19
  | .g2087Enc => 8
  | .g24128Dec => 23
  | .g24128Enc => 12
  | .rs24121Dec => 144
  | .rs24169Dec => 144
  | .rs362017Dec => 216
  | .rs24121Enc => 72
  | .rs24169Enc => 96
  | .rs362017Enc => 120
  | .deinterleave => if s.ilvLegal then s.ilvN.toNat else 0
  | .interleave => if s.ilvLegal then s.ilvN.toNat else 0
  | .dispatchTsbk => 8
  | .dispatchTdulc => 8
  | .dispatchRcch => 8

/-- 30_encoding.md R80, "writes": the first bit offset of BUF the command may write, and the offset after the
last one. -/
def writtenBits (i : Instr) (s : State) : Nat × Nat :=
  match i with
  | .nop => (0, 0)
  | .g2087Dec => (0, 0)
  | .g2087Enc => (8, 24)
  | .g24128Dec => (0, 0)
  | .g24128Enc => (12, 24)
  | .rs24121Dec => (0, 72)
  | .rs24169Dec => (0, 96)
  | .rs362017Dec => (0, 120)
  | .rs24121Enc => (72, 144)
  | .rs24169Enc => (96, 144)
  | .rs362017Enc => (120, 216)
  | .deinterleave => (0, if s.ilvLegal then s.ilvN.toNat else 0)
  | .interleave => (0, if s.ilvLegal then s.ilvN.toNat else 0)
  | .dispatchTsbk => (0, 0)
  | .dispatchTdulc => (0, 0)
  | .dispatchRcch => (0, 0)

/-- The bit of BUF at offset o, if its byte is written (00_scope.md R10, 10_state.md R22). -/
def State.bit? (s : State) (o : Nat) : Option Bool := (s.byte? (o / 8)).map fun b => b.getMsbD (o % 8)

end Sys2Proof.Machine
end

