-- ==== Sys2Proof/Machine/Control.lean ====
section
/-! DEFINITION. NOP (44_control.md R200). -/

namespace Sys2Proof.Machine

/-- 44_control.md R200. -/
def execNop (s : State) : Outcome := .next (s.complete statusNone 0x0000)

end Sys2Proof.Machine
end

