-- ==== Sys2Proof/Machine/Discriminator.lean ====
section
/-! DEFINITION. The frame discriminator mux: the DISPATCH commands (43_dispatch.md). -/

namespace Sys2Proof.Machine

/-- The SUB value that selects a family (43_dispatch.md R190). -/
def familySub : Family → BitVec 4
  | .tsbk => 0
  | .tdulc => 1
  | .rcch => 2

/-- `disc`, the low 6 bits of the first post-FEC byte (43_dispatch.md R191). -/
def discriminator (b : Byte) : BitVec 6 := b.extractLsb' 0 6

/-- `flags`, the two high bits, passed through (43_dispatch.md R191). -/
def discFlags (b : Byte) : BitVec 2 := b.extractLsb' 6 2

/-- The rule the three DISPATCH commands share (43_dispatch.md R192). The family is the command's, which is the SUB
field of the byte in CMD (30_encoding.md R77; DEDUCED, log entry 9). -/
def dispatchFamily (f : Family) (s : State) : Outcome :=
  s.withOperands 1 fun bytes =>
    let b := bufRead bytes 0 8
    s.complete (statusHit (Config.discKnown f (discriminator b))) (0x00#8 ++ (discFlags b ++ discriminator b))

/-- 43_dispatch.md R192, family TSBK. -/
def execDispatchTsbk (s : State) : Outcome := dispatchFamily .tsbk s

/-- 43_dispatch.md R192, family TDULC. -/
def execDispatchTdulc (s : State) : Outcome := dispatchFamily .tdulc s

/-- 43_dispatch.md R192, family RCCH. -/
def execDispatchRcch (s : State) : Outcome := dispatchFamily .rcch s

end Sys2Proof.Machine
end

