-- ==== Sys2Proof/Machine/Polynomial.lean ====
section
/-! DEFINITION. Polynomials over GF(2), written as bit vectors (00_scope.md R12): product, remainder, number of
ones, and the document's shift-and-XOR division (40_golay.md R103). -/

namespace Sys2Proof.Machine

/-- The product of a and the terms of b below x^n, in w bits (00_scope.md R12). -/
def polyMul {w : Nat} (b : BitVec w) : Nat → BitVec w → BitVec w
  | 0, _ => 0
  | n + 1, a => polyMul b n a ^^^ (if b.getLsbD n then a <<< n else 0)

/-- The remainder of p, of degree below deg + n, by g, of degree deg (00_scope.md R12): n steps of long division. -/
def polyMod {w : Nat} (deg : Nat) (g : BitVec w) : Nat → BitVec w → BitVec w
  | 0, p => p
  | n + 1, p => polyMod deg g n (if p.getLsbD (deg + n) then p ^^^ (g <<< n) else p)

/-- The number of 1 bits (00_scope.md R9). -/
def popcount {w : Nat} (v : BitVec w) : Nat := (List.range w).countP v.getLsbD

/-- `popcount(v) mod 2` as a bit. -/
def parity {w : Nat} (v : BitVec w) : BitVec 1 := BitVec.ofNat 1 (popcount v)

/-- The pattern with a single 1, at bit i. -/
def oneBit (w i : Nat) : BitVec w := 1#w <<< i

/-- The loop of 40_golay.md R103, a step of either `while` per unit of fuel. -/
def syndromeLoop : Nat → BitVec 32 → BitVec 32 → BitVec 32
  | 0, _, pattern => pattern
  | fuel + 1, aux, pattern =>
    if pattern &&& 0xFFFFF800 = 0 then pattern
    else if aux &&& pattern = 0 then syndromeLoop fuel (aux >>> 1) pattern
    else syndromeLoop fuel aux (pattern ^^^ ((aux / 0x800) * Config.golayGenpol.setWidth 32))

/-- `getSyndrome(pattern, top)` of 40_golay.md R103. No command calls it (30_encoding.md R78): the commands use
`syn`, to which it is equal on every pattern below 2·top. The fuel covers the 32 shifts and 32 subtractions the loop
can make. -/
def getSyndrome (pattern top : BitVec 32) : BitVec 32 :=
  if 0x800 ≤ pattern.toNat then syndromeLoop 64 top pattern else pattern

end Sys2Proof.Machine
end

