-- ==== Sys2Proof/Machine/Golay.lean ====
section
/-! DEFINITION. The Golay family: the syndrome, the decode and encode tables as functions (10_state.md R29 allows
it), and the commands G2087_DEC, G2087_ENC, G24128_DEC, G24128_ENC (40_golay.md). -/

namespace Sys2Proof.Machine

/-- `syn(p)` = p mod g for a pattern of 23 bits (40_golay.md R102). -/
def syn (p : BitVec 23) : Syndrome := (polyMod 11 (Config.golayGenpol.setWidth 23) 12 p).setWidth 11

/-- A pattern with at most `ones` ones, all below bit `bits`, whose syndrome is s, if there is one: a pattern
without bit `bits` − 1, or that bit and a lighter pattern for the rest of the syndrome. -/
def findLight : (ones bits : Nat) → Syndrome → Option (BitVec 23)
  | _, 0, s => if s = 0 then some 0 else none
  | 0, _ + 1, s => if s = 0 then some 0 else none
  | ones + 1, bits + 1, s =>
    match findLight (ones + 1) bits s with
    | some e => some e
    | none => (findLight ones bits (s ^^^ syn (oneBit 23 bits))).map fun e => e ^^^ oneBit 23 bits

/-- `GOLAY23_DEC[s]` (40_golay.md R105): the pattern of at most three ones whose syndrome is s. By R104 there is
exactly one for every s; the document's "or 0" for a table without one never applies. -/
def golay23Dec (s : Syndrome) : BitVec 23 := (findLight 3 23 s).getD 0

/-- `GOLAY19_DEC[s]` (40_golay.md R106): the same pattern if it lies within the 19 bits, else 0. -/
def golay19Dec (s : Syndrome) : BitVec 19 :=
  if (golay23Dec s).toNat < 2 ^ 19 then (golay23Dec s).setWidth 19 else 0

/-- `enc23(d)` (40_golay.md R107). -/
def enc23 (d : BitVec 12) : BitVec 23 := d ++ syn (d.setWidth 23 <<< 11)

/-- `cw24(d)`, which is `GOLAY24_ENC[d]` (40_golay.md R108, R121). -/
def cw24 (d : BitVec 12) : BitVec 24 := enc23 d ++ parity (enc23 d)

/-- `c11(d)` (40_golay.md R114). -/
def c11 (d : BitVec 8) : BitVec 11 := syn (d.setWidth 23 <<< 11)

/-- `chk12(d)`, which is `GOLAY2087_ENC[d]` (40_golay.md R114, R115). -/
def chk12 (d : BitVec 8) : BitVec 12 := c11 d ++ parity (d ++ c11 d)

/-- The information bits G2087_DEC returns for the 19 received bits (40_golay.md R113). -/
def golay2087Info (v : BitVec 19) : BitVec 8 :=
  (v ^^^ golay19Dec (syn (v.setWidth 23))).extractLsb' 11 8

/-- The information bits G24128_DEC returns for the 23 received bits (40_golay.md R119). -/
def golay24128Info (v : BitVec 23) : BitVec 12 := (v ^^^ golay23Dec (syn v)).extractLsb' 11 12

/-- 40_golay.md R113. -/
def execG2087Dec (s : State) : Outcome :=
  s.withOperands 3 fun bytes => s.complete statusNone ((golay2087Info (bufRead bytes 0 19)).setWidth 16)

/-- 40_golay.md R116. The low nibble of BUF[2] is written as 0. -/
def execG2087Enc (s : State) : Outcome :=
  s.withOperands 1 fun bytes =>
    let c := chk12 (bufRead bytes 0 8)
    (s.setBytes 1 [c.extractLsb' 4 8, c.extractLsb' 0 4 ++ 0#4]).complete statusNone 0x0000

/-- 40_golay.md R119. -/
def execG24128Dec (s : State) : Outcome :=
  s.withOperands 3 fun bytes => s.complete statusNone ((golay24128Info (bufRead bytes 0 23)).setWidth 16)

/-- 40_golay.md R122. Bits 12 to 23 are written, so BUF[1] keeps its high nibble and BUF[2] need not have been
written. -/
def execG24128Enc (s : State) : Outcome :=
  s.withOperands 2 fun bytes =>
    let c := cw24 (bufRead bytes 0 12)
    let after := bufWrite (bufBit bytes) 12 (c.extractLsb' 0 12)
    (s.setBytes 1 (bytesOf after 1 2)).complete statusNone 0x0000

end Sys2Proof.Machine
end

