-- ==== Sys2Proof/Machine/Interleave.lean ====
section
/-! DEFINITION. The bit deinterleaver: the permutation and the commands DEINTERLEAVE and INTERLEAVE
(42_interleave.md). -/

namespace Sys2Proof.Machine

/-- The wire position w(i) of logical bit i (42_interleave.md R181), with R = N / D. -/
def wirePosition (n d i : Nat) : Nat := i % (n / d) * d + i / (n / d)

/-- The logical bit that stands at wire position p: the i with w(i) = p (42_interleave.md R181, read
backwards; DEDUCED, log entry 7). -/
def logicalBit (n d p : Nat) : Nat := p % d * (n / d) + p / d

/-- The first N bits taken through `source`, the others as they are: all reads before any write
(42_interleave.md R183, R184). -/
def permuteBits (n : Nat) (source : Nat → Nat) (bytes : List Byte) (p : Nat) : Bool :=
  if p < n then bufBit bytes (source p) else bufBit bytes p

/-- An interleave command: ILLEGAL for an illegal pair, without reading BUF; else the permutation of the first ILV_N
bits (42_interleave.md R182, R183, R184). -/
def interleaveWith (source : (n d : Nat) → Nat → Nat) (s : State) : Outcome :=
  if s.ilvLegal then
    s.withOperands s.ilvBytes fun bytes =>
      let after := permuteBits s.ilvN.toNat (source s.ilvN.toNat s.ilvD.toNat) bytes
      (s.setBytes 0 (bytesOf after 0 s.ilvBytes)).complete statusNone 0x0000
  else .next s.signalIllegal

/-- 42_interleave.md R183: bit i of BUF takes old bit w(i). -/
def execDeinterleave (s : State) : Outcome := interleaveWith wirePosition s

/-- 42_interleave.md R184: bit w(i) of BUF takes old bit i. -/
def execInterleave (s : State) : Outcome := interleaveWith logicalBit s

end Sys2Proof.Machine
end

