-- ==== Sys2Proof/Machine/Field.lean ====
section
/-! DEFINITION. GF(2^6) (41_reed_solomon.md R140 to R143). -/

namespace Sys2Proof.Machine

/-- a ⊗ b, the polynomial product reduced by the primitive polynomial (41_reed_solomon.md R141). Addition is
`^^^`. -/
def gfMul (a b : GF64) : GF64 :=
  (polyMod 6 (Config.gfPrimpoly.setWidth 11) 5 (polyMul (b.setWidth 11) 6 (a.setWidth 11))).setWidth 6

/-- a to the power n. -/
def gfPow (a : GF64) : Nat → GF64
  | 0 => 1
  | n + 1 => gfMul a (gfPow a n)

/-- x, a ⊗ x, a ⊗ a ⊗ x, …: n of them. -/
def gfPowers (a : GF64) : Nat → GF64 → List GF64
  | 0, _ => []
  | n + 1, x => x :: gfPowers a n (gfMul a x)

/-- `GF_EXP` (41_reed_solomon.md R142): α^0, …, α^62. -/
def gfExpTable : List GF64 := gfPowers Config.gfAlpha 63 1

/-- α^i, exponents taken mod 63 (00_scope.md R13): `GF_EXP[i]` for i below 63 (41_reed_solomon.md R142). -/
def gfExp (i : Nat) : GF64 := gfExpTable.getD (i % 63) 0

/-- `GF_LOG[a]` (41_reed_solomon.md R142): the i below 63 with GF_EXP[i] = a. GF_LOG[0] is undefined, so there is
none. -/
def gfLog? (a : GF64) : Option Nat := gfExpTable.findIdx? fun x => x == a

/-- a^−1 for a ≠ 0 (41_reed_solomon.md R143); 0 has none. -/
def gfInv? (a : GF64) : Option GF64 := (gfLog? a).map fun i => gfExp (63 - i)

/-- a / b for b ≠ 0 (41_reed_solomon.md R143); none for a division by zero, which R143 makes a decode failure. -/
def gfDiv? (a b : GF64) : Option GF64 := (gfInv? b).map fun c => gfMul a c

end Sys2Proof.Machine
end

