-- ==== Sys2Proof/Machine/ReedSolomon.lean ====
section
/-! DEFINITION. The Reed-Solomon family: the three codes, systematic encoding, bounded-distance decoding and the
six RS commands (41_reed_solomon.md). Symbols stand in wire order, symbol 0 the highest-degree coefficient (R144). -/

namespace Sys2Proof.Machine

/-- A code's length and number of information symbols (00_scope.md R2, 41_reed_solomon.md R144). -/
structure RsCode where
  n : Nat
  k : Nat
deriving DecidableEq, Repr

/-- RS(24,12,13). -/
def rs24121 : RsCode := ⟨24, 12⟩

/-- RS(24,16,9). -/
def rs24169 : RsCode := ⟨24, 16⟩

/-- RS(36,20,17). -/
def rs362017 : RsCode := ⟨36, 20⟩

/-- The correction capability t = (n−k)/2 (00_scope.md R2). -/
def RsCode.t (code : RsCode) : Nat := (code.n - code.k) / 2

/-- The number of check symbols, n−k. -/
def RsCode.r (code : RsCode) : Nat := code.n - code.k

/-- The value at x of the polynomial whose coefficients are listed highest degree first, by Horner's rule
(41_reed_solomon.md R144, R164). -/
def evalHigh (p : List GF64) (x : GF64) : GF64 := p.foldl (fun acc c => gfMul acc x ^^^ c) 0

/-- The roots of a code's generator: α^i for the n−k exponents from RS_FCR on (41_reed_solomon.md R144). -/
def RsCode.roots (code : RsCode) : List GF64 := (List.range code.r).map fun i => gfExp (Config.rsFcr + i)

/-- The syndromes r(α^i), i from RS_FCR on (41_reed_solomon.md R164). -/
def RsCode.syndromes (code : RsCode) (word : List GF64) : List GF64 := code.roots.map fun x => evalHigh word x

/-- 41_reed_solomon.md R144: n symbols whose polynomial vanishes at every root of the generator. -/
def RsCode.isCodeword (code : RsCode) (word : List GF64) : Bool :=
  word.length == code.n && (code.syndromes word).all fun s => s == 0

/-- |{ j : a_j ≠ b_j }| (41_reed_solomon.md R160, R162). -/
def distance (a b : List GF64) : Nat := (a.zip b).countP fun x => x.1 != x.2

/-- p ⊕ c ⊗ q, on p's length; q's missing symbols are 0. -/
def addScaled (c : GF64) : List GF64 → List GF64 → List GF64
  | [], _ => []
  | x :: p, [] => x :: p
  | x :: p, y :: q => (x ^^^ gfMul c y) :: addScaled c p q

/-- (x ⊕ root) times the polynomial p, highest degree first. -/
def mulRoot (p : List GF64) (root : GF64) : List GF64 := addScaled root (p ++ [0]) (0 :: p)

/-- `RS_GEN(n−k)`, the product of x ⊕ α^i over the code's roots, highest degree first (41_reed_solomon.md R145). -/
def RsCode.generator (code : RsCode) : List GF64 := code.roots.foldl mulRoot [1]

/-- Long division by a monic polynomial, of which `tail` is the coefficients below the leading one: each of the
`steps` cancels the leading coefficient (41_reed_solomon.md R148). -/
def divRem (tail : List GF64) : (steps : Nat) → List GF64 → List GF64
  | 0, p => p
  | _ + 1, [] => []
  | steps + 1, a :: p => divRem tail steps (addScaled a p tail)

/-- The parity symbols of k data symbols: m(x)·x^(n−k) mod RS_GEN(n−k)(x) (41_reed_solomon.md R148). -/
def RsCode.parity (code : RsCode) (data : List GF64) : List GF64 :=
  divRem (code.generator.drop 1) code.k (data ++ List.replicate code.r 0)

/-- `rs_encode(n, k, m)` (41_reed_solomon.md R148). -/
def RsCode.encode (code : RsCode) (data : List GF64) : List GF64 := data ++ code.parity data

/-- The ⊕-sum of the products of two lists' symbols. -/
def dot : List GF64 → List GF64 → GF64
  | x :: p, y :: q => gfMul x y ^^^ dot p q
  | _, _ => 0

/-- From polynomials (lowest degree first), those combinations that are orthogonal to `row`: the first polynomial
that is not orthogonal is subtracted from the ones after it, and dropped. None at a division by zero, which the
choice of the first polynomial rules out (41_reed_solomon.md R143). -/
def orthogonalTo (row : List GF64) : List (List GF64) → Option (List (List GF64))
  | [] => some []
  | p :: ps =>
    if dot row p = 0 then (orthogonalTo row ps).map fun qs => p :: qs
    else ps.mapM fun q => (gfDiv? (dot row q) (dot row p)).map fun c => addScaled c q p

/-- The monic polynomial x^d, lowest degree first. -/
def monomial (d : Nat) : List GF64 := List.replicate d 0 ++ [1]

/-- An error-locator polynomial Λ (monic, of degree at most t, lowest degree first) with Σ_l Λ_l S_(i+l) = 0 for the
first t values of i. If at most t symbols are in error, each X_j = α^(n−1−j) of an error is a root of any such Λ.
The document leaves the algorithm free (41_reed_solomon.md R164); this one is linear algebra (DEDUCED, log entry 6). -/
def RsCode.locator (code : RsCode) (syndromes : List GF64) : Option (List GF64) :=
  let start := (List.range (code.t + 1)).map monomial
  let rows := (List.range code.t).map fun i => syndromes.drop i
  (rows.foldl (fun found row => found.bind (orthogonalTo row)) (some start)).bind List.head?

/-- The value at x of the polynomial whose coefficients are listed lowest degree first. -/
def evalLow (p : List GF64) (x : GF64) : GF64 := evalHigh p.reverse x

/-- X_j = α^(n−1−j) of every transmitted position j, in wire order (41_reed_solomon.md R164). -/
def RsCode.locations (code : RsCode) : List GF64 := (List.range code.n).map fun j => gfExp (code.n - 1 - j)

/-- The polynomial that vanishes at the given locations, lowest degree first. -/
def rootsPolynomial (locations : List GF64) : List GF64 := (locations.foldl mulRoot [1]).reverse

/-- The error value at location x, among the roots of the locator: with L the polynomial that vanishes at the
other roots, Σ_l L_l S_l = e_x ⊗ x^RS_FCR ⊗ L(x). -/
def errorValue (syndromes roots : List GF64) (x : GF64) : Option GF64 :=
  let others := rootsPolynomial (roots.filter fun y => y != x)
  gfDiv? (dot others syndromes) (gfMul (gfPow x Config.rsFcr) (evalLow others x))

/-- The word with the errors the syndromes point to taken away: Chien search over the transmitted positions, then
an error value at each root (41_reed_solomon.md R164). -/
def RsCode.candidate (code : RsCode) (word : List GF64) : Option (List GF64) := do
  let s := code.syndromes word
  let locator ← code.locator s
  let roots := code.locations.filter fun x => evalLow locator x == 0
  (word.zip code.locations).mapM fun (c, x) =>
    if x ∈ roots then (errorValue s roots x).map fun e => c ^^^ e else some c

/-- `rs_decode(n, k, r)` (41_reed_solomon.md R160): the codeword within distance t of the received word, or none
where there is none. R164's last step, and more, is checked here: the answer is a codeword, and it is near. -/
def RsCode.decode (code : RsCode) (word : List GF64) : Option (List GF64) :=
  (code.candidate word).bind fun c =>
    if code.isCodeword c ∧ distance word c ≤ code.t then some c else none

/-- What every RS decode command does with the code's bytes (41_reed_solomon.md R161, R162, R163): on success the
data symbols are written back and RESULT is the number of errors; on failure FAIL is set and BUF stays. -/
def rsDecodeBytes (code : RsCode) (s : State) (bytes : List Byte) : State :=
  let r := readSymbols bytes code.n
  match code.decode r with
  | some c =>
    let after := writeSymbols (bufBit bytes) 0 (c.take code.k)
    (s.setBytes 0 (bytesOf after 0 (6 * code.k / 8))).complete statusNone (BitVec.ofNat 16 (distance r c))
  | none => s.complete statusFail 0x0000

/-- What every RS encode command does with the data bytes (41_reed_solomon.md R147, R148): the parity symbols
are written to bits 6k … 6n−1. -/
def rsEncodeBytes (code : RsCode) (s : State) (bytes : List Byte) : State :=
  let c := code.encode (readSymbols bytes code.k)
  let after := writeSymbols (bufBit bytes) code.k (c.drop code.k)
  (s.setBytes (6 * code.k / 8) (bytesOf after (6 * code.k / 8) (6 * code.r / 8))).complete statusNone 0x0000

/-- 41_reed_solomon.md R165. -/
def execRs24121Dec (s : State) : Outcome := s.withOperands 18 (rsDecodeBytes rs24121 s)

/-- 41_reed_solomon.md R166. -/
def execRs24169Dec (s : State) : Outcome := s.withOperands 18 (rsDecodeBytes rs24169 s)

/-- 41_reed_solomon.md R167. -/
def execRs362017Dec (s : State) : Outcome := s.withOperands 27 (rsDecodeBytes rs362017 s)

/-- 41_reed_solomon.md R149. -/
def execRs24121Enc (s : State) : Outcome := s.withOperands 9 (rsEncodeBytes rs24121 s)

/-- 41_reed_solomon.md R150. -/
def execRs24169Enc (s : State) : Outcome := s.withOperands 12 (rsEncodeBytes rs24169 s)

/-- 41_reed_solomon.md R151. -/
def execRs362017Enc (s : State) : Outcome := s.withOperands 15 (rsEncodeBytes rs362017 s)

end Sys2Proof.Machine
end

