-- ==== Sys2Proof/Machine/Dispatch.lean ====
section
/-! DEFINITION. The meaning of each command: the rule 30_encoding.md R77 names for it. -/

namespace Sys2Proof.Machine

def exec (i : Instr) (s : State) : Host.Outcome State Fault Refusal :=
  match i with
  | .nop => Sys2Proof.Machine.execNop s
  | .g2087Dec => Sys2Proof.Machine.execG2087Dec s
  | .g2087Enc => Sys2Proof.Machine.execG2087Enc s
  | .g24128Dec => Sys2Proof.Machine.execG24128Dec s
  | .g24128Enc => Sys2Proof.Machine.execG24128Enc s
  | .rs24121Dec => Sys2Proof.Machine.execRs24121Dec s
  | .rs24169Dec => Sys2Proof.Machine.execRs24169Dec s
  | .rs362017Dec => Sys2Proof.Machine.execRs362017Dec s
  | .rs24121Enc => Sys2Proof.Machine.execRs24121Enc s
  | .rs24169Enc => Sys2Proof.Machine.execRs24169Enc s
  | .rs362017Enc => Sys2Proof.Machine.execRs362017Enc s
  | .deinterleave => Sys2Proof.Machine.execDeinterleave s
  | .interleave => Sys2Proof.Machine.execInterleave s
  | .dispatchTsbk => Sys2Proof.Machine.execDispatchTsbk s
  | .dispatchTdulc => Sys2Proof.Machine.execDispatchTdulc s
  | .dispatchRcch => Sys2Proof.Machine.execDispatchRcch s

end Sys2Proof.Machine
end

