-- ==== Sys2Proof/Machine/Window.lean ====
section
/-! DEFINITION. The register window: what a host access at each offset does (20_memory.md R50, R51, R56), and a
write of CMD, which runs a command (30_encoding.md R75). -/

namespace Sys2Proof.Machine

/-- What stands at a window offset (20_memory.md R50). -/
inductive Place where
  | buf (i : Nat)
  | cmd
  | status
  | resultHi
  | resultLo
  | ilvN
  | ilvD
  | reserved
deriving DecidableEq, Repr

/-- The window map (20_memory.md R50). -/
def place (off : Offset) : Place :=
  if off.toNat < Config.bufBytes then .buf off.toNat
  else if off = 0x1C then .cmd
  else if off = 0x1D then .status
  else if off = 0x1E then .resultHi
  else if off = 0x1F then .resultLo
  else if off = 0x20 then .ilvN
  else if off = 0x21 then .ilvD
  else .reserved

/-- `MemRead(off, 1)` (20_memory.md R50, R51, R53): the byte, or the fault of an unwritten BUF byte
(10_state.md R22). -/
def State.readWindow (s : State) (off : Offset) : Except Fault Byte :=
  match place off with
  | .buf i =>
    match s.byte? i with
    | some b => .ok b
    | none => .error (.unwrittenRead i)
  | .cmd => .ok s.cmd
  | .status => .ok s.status
  | .resultHi => .ok (s.result.extractLsb' 8 8)
  | .resultLo => .ok (s.result.extractLsb' 0 8)
  | .ilvN => .ok s.ilvN
  | .ilvD => .ok s.ilvD
  | .reserved => .ok 0x00

/-- A host write of c to CMD (30_encoding.md R75): CMD takes the byte, and the command it encodes runs, or the illegal
command's rule (44_control.md R202). -/
def State.runCommand (s : State) (c : Byte) : Outcome :=
  match decode c with
  | .ok i => exec i { s with cmd := c }
  | .error _ => .next { s with cmd := c }.signalIllegal

/-- `MemWrite(off, 1, v)` (20_memory.md R50, R51, R56): STATUS, RESULT and the reserved offsets ignore it. -/
def State.writeWindow (s : State) (off : Offset) (v : Byte) : Outcome :=
  match place off with
  | .buf i => .next (s.setByte i v)
  | .cmd => s.runCommand v
  | .status => .next s
  | .resultHi => .next s
  | .resultLo => .next s
  | .ilvN => .next { s with ilvN := v }
  | .ilvD => .next { s with ilvD := v }
  | .reserved => .next s

/-- One access or event of the host's program (30_encoding.md R83, 70_reset_and_hazards.md R230). A read's value goes to
the trace. -/
def State.act (s : State) : Action → Outcome
  | .wr off v => s.writeWindow off v
  | .rd off =>
    match s.readWindow off with
    | .ok b => .next (s.record off b)
    | .error r => .fault r
  | .comment _ => .next s
  | .reset => .next s.resetBlock

/-- One line of the host's program (30_encoding.md R85): the host moves to its next line and the line takes effect. A
run that has faulted goes no further (10_state.md R34), unless reset starts a new one (70_reset_and_hazards.md R231). -/
def State.runLine (s : State) (a : Action) : Outcome :=
  match s.faulted, a with
  | some r, .wr _ _ => .fault r
  | some r, .rd _ => .fault r
  | some r, .comment _ => .fault r
  | _, _ => s.nextLine.act a

/-- A step with no line left: the block does nothing on its own (20_memory.md R60, 60_exceptions.md R226), so the state
stays; a run that has faulted stays stopped (10_state.md R34). -/
def State.idle (s : State) : Outcome :=
  match s.faulted with
  | some r => .fault r
  | none => .next s

/-- The program that writes the one CMD byte of a command, loaded and at its first line (30_encoding.md R83, R84). -/
def commandProgram (c : Byte) : List Action := [.wr 0x1C c]

end Sys2Proof.Machine
end

