-- ==== Sys2Proof/Machine/HostProgram.lean ====
section
/-! DEFINITION. The expansion of a host program's source lines into host accesses (30_encoding.md R83, R84). -/

namespace Sys2Proof.Machine

/-- The window offset a name stands for (20_memory.md R50, 30_encoding.md R83). -/
def offsetOf : OffsetName → Offset
  | .number off => off
  | .cmd => 0x1C
  | .status => 0x1D
  | .resultHi => 0x1E
  | .resultLo => 0x1F
  | .ilvN => 0x20
  | .ilvD => 0x21
  | .buf i => BitVec.ofNat 6 i

/-- `wr BUF+i, b0` ; `wr BUF+i+1, b1` ; … (30_encoding.md R84). -/
def writeLines : Nat → List Byte → List Action
  | _, [] => []
  | i, b :: bs => .wr (offsetOf (.buf i)) b :: writeLines (i + 1) bs

/-- The accesses a source line stands for (30_encoding.md R84). -/
def expand : SourceLine → List Action
  | .wr off v => [.wr (offsetOf off) v]
  | .rd off => [.rd (offsetOf off)]
  | .comment text => [.comment text]
  | .cmd i => [.wr (offsetOf .cmd) (encode i)]
  | .wrbuf first bytes => writeLines first bytes
  | .rdbuf first count => (List.range count).map fun k => .rd (offsetOf (.buf (first + k)))
  | .rdres => [.rd (offsetOf .resultHi), .rd (offsetOf .resultLo)]
  | .rdst => [.rd (offsetOf .status)]
  | .ilv n d => [.wr (offsetOf .ilvN) n, .wr (offsetOf .ilvD) d]

/-- A whole program (30_encoding.md R85: its lines in order). -/
def expandAll (lines : List SourceLine) : List Action := lines.flatMap expand

/-- The machine at the first line of a host program, right after reset. -/
def load (lines : List SourceLine) : State := State.reset.loadProgram (expandAll lines)

end Sys2Proof.Machine
end

