-- ==== Sys2Proof/Machine/Step.lean ====
section
/-! DEFINITION. One step of the machine: one line of the host's program (30_encoding.md R85), or nothing once it has
ended. The block itself fetches no instruction (10_state.md R31, 20_memory.md R54). -/

namespace Sys2Proof.Machine

/-- One step. -/
def step (s : State) : Host.Outcome State Fault Refusal :=
  match s.program[s.line]? with
  | some a => s.runLine a
  | none => s.idle

/-- The step as the record of 10_state.md R34 sees it: a fault is kept in `faulted`, and nothing else changes
(30_encoding.md R76). -/
def stepRecorded (s : State) : State :=
  match step s with
  | .next t => t
  | .fault r => s.recordFault r
  | .refused _ => s

/-- `s` with a host program of the one line that writes the table word's byte to CMD, at its first line, in a run
that has not faulted: the next step runs that command (log entry 2). -/
def State.withFetchWord (s : State) (nbits w : Nat) : State :=
  { s.loadProgram (commandProgram (BitVec.ofNat 8 (w % 2 ^ nbits))) with faulted := none }

end Sys2Proof.Machine
end

