-- ==== Sys2Proof/Machine/Instances.lean ====
section
/-! DEFINITION. Several `fec_core` instances side by side, as the product of independent machines (20_memory.md R65):
each has its own state and its own host, the hosts' steps interleave in any order, and what happens to one of them, a
fault or a reset among it, leaves the others as they are. -/

namespace Sys2Proof.Machine

/-- What can happen to one instance. -/
inductive InstanceEvent where
  /-- Its host takes a step (20_memory.md R65). -/
  | step
  /-- The system asserts its reset, between two host accesses (70_reset_and_hazards.md R230). -/
  | reset
  /-- Its host is given a program, from outside the machine, and stands at the first line (log entry 2). -/
  | load (program : List Action)
deriving DecidableEq, Repr

/-- What an event does to the instance it happens to. A fault stays in that instance's own record (10_state.md R34), and
its run goes no further until its reset (70_reset_and_hazards.md R231). -/
def State.onEvent (s : State) : InstanceEvent → State
  | .step => stepRecorded s
  | .reset => s.resetBlock
  | .load program => s.loadProgram program

/-- An event at the instance of the given index: the others do not move, and their states are not read (20_memory.md
R65). With no instance at that index, nothing happens. -/
def stepInstance (system : List State) (e : Nat × InstanceEvent) : List State :=
  system.modify e.1 fun s => s.onEvent e.2

/-- Events in the order given: an arbitrary interleaving of the instances' steps (20_memory.md R65). -/
def runInstances (system : List State) (events : List (Nat × InstanceEvent)) : List State :=
  events.foldl stepInstance system

end Sys2Proof.Machine
end

