-- ==== Sys2Proof/Machine/ProgramText.lean ====
section
/-! DEFINITION. Reading the text of a host program (30_encoding.md R83, R84). The text is a list of letters a line. Log
entry 4 says how numerals are read, log entry 12 how words are set apart,
log entry 13 which words may be names. -/

namespace Sys2Proof.Machine

/-- The words of a line, between spaces and commas (DESIGN CHOICE, log entry 12: 30_encoding.md R83 and R84 write a comma
after a first operand and do not say whether it may be left out or stand elsewhere; here a comma is a blank). -/
def splitWords : List Char → List (List Char)
  | [] => [[]]
  | c :: cs =>
    if c == ' ' || c == ',' then [] :: splitWords cs
    else
      match splitWords cs with
      | w :: ws => (c :: w) :: ws
      | [] => [[c]]

/-- The words of a line before its comment. A line without one, be it of commas only, is a comment line (DESIGN CHOICE,
log entry 12). -/
def lineWords (line : List Char) : List (List Char) :=
  (splitWords (line.takeWhile fun c => c != ';')).filter fun w => !w.isEmpty

/-- The value of a digit: 0 to 9, a to f, A to F. -/
def digit? (c : Char) : Option Nat :=
  if '0' ≤ c ∧ c ≤ '9' then some (c.toNat - '0'.toNat)
  else if 'a' ≤ c ∧ c ≤ 'f' then some (c.toNat - 'a'.toNat + 10)
  else if 'A' ≤ c ∧ c ≤ 'F' then some (c.toNat - 'A'.toNat + 10)
  else none

/-- A numeral in a base: at least one digit, each below the base. -/
def numeralIn (base : Nat) (letters : List Char) : Option Nat :=
  if letters.isEmpty then none
  else letters.foldlM (fun n c => (digit? c).bind fun d => if d < base then some (base * n + d) else none) 0

/-- `0x…` is hexadecimal; a numeral without it is read in the base its place has (log entry 4). -/
def numeral (base : Nat) : List Char → Option Nat
  | '0' :: 'x' :: letters => numeralIn 16 letters
  | letters => numeralIn base letters

/-- A byte, 0x00 to 0xFF, in hexadecimal (30_encoding.md R83). A symbolic name is no byte (DESIGN CHOICE, log entry 13: R83
says that OFF and BYTE are both written in hexadecimal or as symbolic names, and every name it lists is an offset's). -/
def byteWord (w : List Char) : Option Byte :=
  (numeral 16 w).bind fun n => if n < 256 then some (BitVec.ofNat 8 n) else none

/-- A window offset, 0x00 to 0x3F, in hexadecimal or by name (30_encoding.md R83). -/
def offsetWord (w : List Char) : Option OffsetName :=
  match w with
  | ['C', 'M', 'D'] => some .cmd
  | ['S', 'T', 'A', 'T', 'U', 'S'] => some .status
  | ['R', 'E', 'S', 'U', 'L', 'T', '_', 'H', 'I'] => some .resultHi
  | ['R', 'E', 'S', 'U', 'L', 'T', '_', 'L', 'O'] => some .resultLo
  | ['I', 'L', 'V', '_', 'N'] => some .ilvN
  | ['I', 'L', 'V', '_', 'D'] => some .ilvD
  | 'B' :: 'U' :: 'F' :: '+' :: i => (numeral 10 i).map .buf
  | _ => (numeral 16 w).bind fun n => if n < 64 then some (.number (BitVec.ofNat 6 n)) else none

/-- A byte given as a count, in decimal (`ilv N, D`, log entry 4). -/
def countWord (w : List Char) : Option Byte :=
  (numeral 10 w).bind fun n => if n < 256 then some (BitVec.ofNat 8 n) else none

/-- The source line a line of text stands for, if it is one (30_encoding.md R83, R84). -/
def parseLine (line : List Char) : Option SourceLine :=
  match lineWords line with
  | [] => some (.comment (String.ofList (line.dropWhile fun c => c == ' ')))
  | [['w', 'r'], off, b] => do some (.wr (← offsetWord off) (← byteWord b))
  | [['r', 'd'], off] => (offsetWord off).map .rd
  | [['c', 'm', 'd'], m] => (ofMnemonic m).map .cmd
  | ['w', 'r', 'b', 'u', 'f'] :: i :: bs => do some (.wrbuf (← numeral 10 i) (← bs.mapM byteWord))
  | [['r', 'd', 'b', 'u', 'f'], i, m] => do some (.rdbuf (← numeral 10 i) (← numeral 10 m))
  | [['r', 'd', 'r', 'e', 's']] => some .rdres
  | [['r', 'd', 's', 't']] => some .rdst
  | [['i', 'l', 'v'], n, d] => do some (.ilv (← countWord n) (← countWord d))
  | _ => none

/-- A program's text: every line must be one, and be well-formed. -/
def parseProgram (text : List (List Char)) : Option (List SourceLine) :=
  text.mapM fun line => (parseLine line).filter fun l => l.wf

end Sys2Proof.Machine
end

