-- ==== Sys2Proof/Safety.lean ====
section
/-! DEFINITION. The words the statements are made of: what a state holds, which bits two states share, what a command
leaves alone, and the invariant every step keeps. -/

namespace Sys2Proof.Machine

/-- BUF[0], …, BUF[n−1] are written and hold b 0, …, b (n−1). -/
def State.Holds (s : State) (n : Nat) (b : Nat → Byte) : Prop := ∀ j, j < n → s.byte? j = some (b j)

/-- Every byte of BUF a command needs is written (30_encoding.md R76, R80). -/
def State.Ready (s : State) (i : Instr) : Prop := ∀ j, j < operandBytes i s → s.written j = true

/-- t is s but for BUF, and for STATUS and RESULT, which hold the values given: nothing else of the machine has
changed (44_control.md R201). What BUF holds is said beside it. -/
def EndsWith (s t : State) (status : Byte) (result : Half) : Prop :=
  t = { s with buf := t.buf, status := status, result := result }

/-- The two states hold the same in every byte of BUF from index `first` to index `last` − 1, written or not. -/
def SameBytes (s t : State) (first last : Nat) : Prop := ∀ j, first ≤ j → j < last → t.byte? j = s.byte? j

/-- The two states hold the same in every byte of BUF but those of index `first` to `last` − 1. -/
def SameBytesOutside (s t : State) (first last : Nat) : Prop := ∀ j, (j < first ∨ last ≤ j) → t.byte? j = s.byte? j

/-- The bit at offset o of the bytes a function gives (00_scope.md R10). -/
def bitOf (b : Nat → Byte) (o : Nat) : Bool := (b (o / 8)).getMsbD (o % 8)

/-- The w bits from offset o of the bytes a function gives, most significant first (00_scope.md R10). -/
def fieldOf (b : Nat → Byte) (o w : Nat) : BitVec w := readBits (bitOf b) o w

/-- The first `count` symbols of the bytes a function gives (41_reed_solomon.md R146). -/
def symbolsOf (b : Nat → Byte) (count : Nat) : List GF64 := (List.range count).map fun j => fieldOf b (6 * j) 6

/-- The three bytes of a 24-bit word, most significant first (40_golay.md R108, R109). -/
def bytesOfWord (w : BitVec 24) (j : Nat) : Byte := w.extractLsb' (8 * (2 - j)) 8

/-- The three Reed-Solomon codes with their decode and encode commands (00_scope.md R2, 30_encoding.md R77). -/
def rsFamily : List (RsCode × Instr × Instr) :=
  [(rs24121, .rs24121Dec, .rs24121Enc), (rs24169, .rs24169Dec, .rs24169Enc), (rs362017, .rs362017Dec, .rs362017Enc)]

/-- The family each DISPATCH command reads against (30_encoding.md R77, 43_dispatch.md R190). -/
def dispatchFamilies : List (Instr × Family) :=
  [(.dispatchTsbk, .tsbk), (.dispatchTdulc, .tdulc), (.dispatchRcch, .rcch)]

/-- STATUS is one of its four values: no bit set, or one of ILLEGAL, FAIL and HIT (10_state.md R24, R25). -/
def statusLegal (st : Byte) : Prop := st = 0x00 ∨ st = 0x01 ∨ st = 0x02 ∨ st = 0x04

/-- What every step keeps: BUF's canonical form (10_state.md R21), a legal STATUS (R24, R25), a RESULT the last
command can have left beside that STATUS (R26: 0 beside ILLEGAL and FAIL, a byte beside HIT, 12 bits at most), a
recorded fault that names a byte of BUF (R22), and a host that has not run past its program (30_encoding.md R85). -/
structure State.Inv (s : State) : Prop where
  bufCanonical : s.buf.wf
  statusIsLegal : statusLegal s.status
  resultBesideIllegal : s.status = 0x01 → s.result = 0
  resultBesideFail : s.status = 0x02 → s.result = 0
  resultBesideHit : s.status = 0x04 → s.result.toNat < 256
  resultIsTwelveBits : s.result.toNat < 4096
  faultInBuf : ∀ i, s.faulted = some (.unwrittenRead i) → i < Config.bufBytes
  lineInProgram : s.line ≤ s.program.length

/-- A run is safe at s when the next step neither faults nor is refused. -/
def State.Safe (s : State) : Prop := ∃ t, step s = .next t

end Sys2Proof.Machine
end

