-- ==== Sys2Proof/Certificates/Slice0/Obligations.lean ====
section
/-! DEFINITION. The statements to prove about the model, by family of the spec. OBLIGATIONS.json lists them with their
rules. -/

open Sys2Proof Sys2Proof.Machine

/-! ## Encoding -/

/-- 30_encoding.md R73, R77: a byte decodes to a command exactly when it is the CMD value of that command. -/
def Obligations.DecodeIsTheCommandTable : Prop :=
  ∀ (c : Byte) (i : Instr), decode c = .ok i ↔ c = encode i

/-- The spec's own inference "Sixteen of the 256 CMD values encode a legal command" (30_encoding.md R74, from R73):
sixteen of the 256 CMD values are legal, and the other 240 are not. -/
def Obligations.SixteenLegalCommandBytes : Prop :=
  ((List.range 256).countP fun c => (decode (BitVec.ofNat 8 c)).toOption.isSome) = 16 ∧
  ((List.range 256).countP fun c => (decode (BitVec.ofNat 8 c)).toOption.isNone) = 240

/-- 30_encoding.md R71, R72: a byte decodes to a command exactly when its SUB is one its OP allows. -/
def Obligations.LegalExactlyWhenSubAllowed : Prop :=
  ∀ op sub : BitVec 4, (∃ i, decode (op ++ sub) = .ok i) ↔
    (sub = 0 ∧ op.toNat ≤ 9) ∨ ((sub = 1 ∨ sub = 2) ∧ (op = 0x5 ∨ op = 0x6 ∨ op = 0x9))

/-- 30_encoding.md R77: command bytes written out from the table, one per family, decode to their commands. -/
def Obligations.WrittenBytesDecode : Prop :=
  decode 0b00000000 = .ok .nop ∧ decode 0b00010000 = .ok .g2087Dec ∧ decode 0b01000000 = .ok .g24128Enc ∧
  decode 0b01010010 = .ok .rs362017Dec ∧ decode 0b01100001 = .ok .rs24169Enc ∧
  decode 0b10000000 = .ok .interleave ∧ decode 0b10010001 = .ok .dispatchTdulc

/-! ## The step and the register window -/

/-- 30_encoding.md R75: a step whose line writes a legal command's byte to CMD runs that command, with CMD holding
the byte and the host at its next line. -/
def Obligations.StepRunsTheWrittenCommand : Prop :=
  ∀ (s : State) (c : Byte) (i : Instr), s.faulted = none → s.program[s.line]? = some (.wr 0x1C c) → decode c = .ok i →
    step s = exec i { s with cmd := c, line := s.line + 1 }

/-- 30_encoding.md R83, R75 (20_memory.md R50: CMD stands at offset 0x1C): what a step does on a `wr` line and on a
comment line of a run that has not faulted: a `wr` line's step is the host write of that byte at that offset, whichever
they are, with the host at its next line; at CMD that write runs the byte's command, and a byte that encodes none is
ILLEGAL (44_control.md R202); a comment line only moves the host. -/
def Obligations.StepPerformsTheHostLine : Prop :=
  (∀ (s : State) (off : Offset) (v : Byte), s.faulted = none → s.program[s.line]? = some (.wr off v) →
    step s = { s with line := s.line + 1 }.writeWindow off v) ∧
  (∀ (s : State) (c : Byte), s.faulted = none → s.program[s.line]? = some (.wr 0x1C c) →
    step s = { s with line := s.line + 1 }.runCommand c) ∧
  (∀ (s : State) (c : Byte), s.faulted = none → s.program[s.line]? = some (.wr 0x1C c) → (∀ i, c ≠ encode i) →
    step s = .next { s with line := s.line + 1, cmd := c, status := 0x01, result := 0x0000 }) ∧
  (∀ (s : State) (text : String), s.faulted = none → s.program[s.line]? = some (.comment text) →
    step s = .next { s with line := s.line + 1 })

/-- 44_control.md R202: a CMD value that encodes no command, and an interleave command with an illegal pair, set
STATUS to ILLEGAL and RESULT to 0 and change nothing else but CMD, which holds the written byte; no BUF byte is
read, so there is no fault. -/
def Obligations.IllegalCommandsOnlySignal : Prop :=
  (∀ (s : State) (c : Byte), (∀ i, c ≠ encode i) →
    s.runCommand c = .next { s with cmd := c, status := 0x01, result := 0x0000 }) ∧
  (∀ (s : State) (c : Byte), c = 0x70 ∨ c = 0x80 →
    ¬ (1 ≤ s.ilvN.toNat ∧ s.ilvN.toNat ≤ 216 ∧ 1 ≤ s.ilvD.toNat ∧ s.ilvN.toNat % s.ilvD.toNat = 0) →
    s.runCommand c = .next { s with cmd := c, status := 0x01, result := 0x0000 })

/-- 20_memory.md R51: reserved offsets read 0x00, and a write to a reserved offset, STATUS, RESULT_HI or RESULT_LO
changes no state and runs no command. Every 6-bit offset is one of the window's. -/
def Obligations.ReservedAndReadOnlyOffsets : Prop :=
  (∀ (s : State) (off : Offset), off.toNat = 0x1B ∨ 0x22 ≤ off.toNat → s.readWindow off = .ok 0x00) ∧
  (∀ (s : State) (off : Offset) (v : Byte),
    off.toNat = 0x1B ∨ off.toNat = 0x1D ∨ off.toNat = 0x1E ∨ off.toNat = 0x1F ∨ 0x22 ≤ off.toNat →
    s.writeWindow off v = .next s)

/-- 20_memory.md R50, R53: what a host read returns at each register's offset, and of a BUF byte, written or not. -/
def Obligations.HostReadsTheWindow : Prop :=
  ∀ s : State,
    s.readWindow 0x1C = .ok s.cmd ∧ s.readWindow 0x1D = .ok s.status ∧
    (∀ hi lo, s.readWindow 0x1E = .ok hi → s.readWindow 0x1F = .ok lo → hi ++ lo = s.result) ∧
    (∃ hi, s.readWindow 0x1E = .ok hi) ∧ (∃ lo, s.readWindow 0x1F = .ok lo) ∧
    s.readWindow 0x20 = .ok s.ilvN ∧ s.readWindow 0x21 = .ok s.ilvD ∧
    (∀ (off : Offset) (b : Byte), off.toNat < 27 → s.byte? off.toNat = some b → s.readWindow off = .ok b) ∧
    (∀ off : Offset, off.toNat < 27 → s.byte? off.toNat = none →
      s.readWindow off = .error (.unwrittenRead off.toNat))

/-- 20_memory.md R56: writes to BUF, ILV_N and ILV_D only store the byte. -/
def Obligations.HostWritesOnlyStore : Prop :=
  ∀ (s : State) (v : Byte),
    (∀ off : Offset, off.toNat < 27 → ∃ t, s.writeWindow off v = .next t ∧ t.byte? off.toNat = some v ∧
      SameBytesOutside s t off.toNat (off.toNat + 1) ∧ EndsWith s t s.status s.result) ∧
    s.writeWindow 0x20 v = .next { s with ilvN := v } ∧ s.writeWindow 0x21 v = .next { s with ilvD := v }

/-- 20_memory.md R56: a read step changes nothing of the block; the host's position moves and its trace grows by the
value read. A read of an unwritten BUF byte stops the run with the fault recorded (10_state.md R22). -/
def Obligations.ReadStepsLeaveTheBlock : Prop :=
  ∀ (s : State) (off : Offset), s.faulted = none → s.program[s.line]? = some (.rd off) →
    (∀ b, s.readWindow off = .ok b →
      step s = .next { s with line := s.line + 1, trace := s.trace ++ [(off, b)] }) ∧
    (∀ r, s.readWindow off = .error r → step s = .fault r ∧ stepRecorded s = { s with faulted := some r })

/-- 70_reset_and_hazards.md R231: reset leaves every BUF byte unwritten, every register 0 and no fault, from every
state, and runs no command. That the host's program, position and trace stay is the model's choice (log entry 1). -/
def Obligations.ResetStepResets : Prop :=
  ∀ s : State, s.program[s.line]? = some .reset → ∃ t, step s = .next t ∧ (∀ j, t.byte? j = none) ∧
    t.cmd = 0x00 ∧ t.status = 0x00 ∧ t.result = 0x0000 ∧ t.ilvN = 0x00 ∧ t.ilvD = 0x00 ∧ t.faulted = none ∧
    t.program = s.program ∧ t.line = s.line + 1 ∧ t.trace = s.trace

/-- 10_state.md R35: the state after reset. The host's three fields are the model's choice (log entry 1). -/
def Obligations.ResetStateValues : Prop :=
  (∀ j, State.reset.byte? j = none) ∧ State.reset.cmd = 0x00 ∧ State.reset.status = 0x00 ∧
  State.reset.result = 0x0000 ∧ State.reset.ilvN = 0x00 ∧ State.reset.ilvD = 0x00 ∧ State.reset.faulted = none ∧
  State.reset.program = [] ∧ State.reset.line = 0 ∧ State.reset.trace = []

/-- The state after reset has the invariant. -/
def Obligations.ResetHasInvariant : Prop := State.reset.Inv

/-- Every step keeps the invariant: BUF's canonical form, STATUS one of its four values, RESULT what the last
command can have left beside it, the recorded fault a byte of BUF, the host within its program. A step that goes on
leaves no fault recorded; a step that faults keeps the invariant too, with its fault in the record (10_state.md R34). -/
def Obligations.StepKeepsInvariant : Prop :=
  (∀ s t : State, s.Inv → step s = .next t → t.Inv) ∧ (∀ s : State, s.Inv → (stepRecorded s).Inv)

/-- 30_encoding.md R85: the host's lines run in order: a step that goes on takes the next line, whatever the block
answers, and the program does not change; past its last line nothing happens (log entry 1). -/
def Obligations.ProgramRunsInOrder : Prop :=
  (∀ s t : State, s.line < s.program.length → step s = .next t → t.program = s.program ∧ t.line = s.line + 1) ∧
  (∀ s : State, s.faulted = none → s.program.length ≤ s.line → step s = .next s)

/-- 10_state.md R34: once a fault is recorded, every step stops with it and the record stays, until reset. -/
def Obligations.FaultedRunStays : Prop :=
  ∀ (s : State) (r : Fault), s.faulted = some r → s.program[s.line]? ≠ some .reset →
    step s = .fault r ∧ stepRecorded s = s

/-- 30_encoding.md R84: the expansion of each pseudo-instruction. -/
def Obligations.PseudoInstructionsExpand : Prop :=
  (∀ i : Instr, expand (.cmd i) = [.wr 0x1C (encode i)]) ∧
  expand .rdres = [.rd 0x1E, .rd 0x1F] ∧ expand .rdst = [.rd 0x1D] ∧
  (∀ n d : Byte, expand (.ilv n d) = [.wr 0x20 n, .wr 0x21 d]) ∧
  (∀ (first : Nat) (bytes : List Byte) (k : Nat) (b : Byte), first + bytes.length ≤ 27 → bytes[k]? = some b →
    (expand (.wrbuf first bytes))[k]? = some (.wr (BitVec.ofNat 6 (first + k)) b)) ∧
  (∀ (first : Nat) (bytes : List Byte), (expand (.wrbuf first bytes)).length = bytes.length) ∧
  (∀ (first count k : Nat), first + count ≤ 27 → k < count →
    (expand (.rdbuf first count))[k]? = some (.rd (BitVec.ofNat 6 (first + k)))) ∧
  (∀ first count : Nat, (expand (.rdbuf first count)).length = count)

/-- 20_memory.md R65: several instances are the product of independent machines. Whatever the interleaving, each
instance ends as its own events alone, in their order, take it; and the steps of two different instances give the same
two states in either order. -/
def Obligations.InstancesDoNotInterfere : Prop :=
  (∀ (system : List State) (events : List (Nat × InstanceEvent)) (k : Nat),
    (runInstances system events)[k]? =
      system[k]?.map fun s => ((events.filter fun e => e.1 == k).map Prod.snd).foldl State.onEvent s) ∧
  (∀ (system : List State) (j k : Nat) (s s' t t' : State), j ≠ k → system[j]? = some s → system[k]? = some t →
    step s = .next s' → step t = .next t' →
    runInstances system [(j, .step), (k, .step)] = (system.set j s').set k t' ∧
    runInstances system [(k, .step), (j, .step)] = (system.set j s').set k t')

/-- 20_memory.md R65, 10_state.md R22, 70_reset_and_hazards.md R230, R231: a fault at one instance is recorded there and
changes nothing else, of that instance or of another; every other instance steps on. A reset of that instance resets its
block alone and ends the stop: given a program (loaded from outside, log entry 2), its next step takes the first line. -/
def Obligations.FaultStopsOneInstance : Prop :=
  (∀ (system : List State) (j : Nat) (s : State) (r : Fault), system[j]? = some s → s.faulted = none →
    step s = .fault r →
    stepInstance system (j, .step) = system.set j { s with faulted := some r } ∧
    ∀ (k : Nat) (t t' : State), k ≠ j → system[k]? = some t → step t = .next t' →
      runInstances system [(j, .step), (k, .step)] = (system.set j { s with faulted := some r }).set k t') ∧
  (∀ (system : List State) (j : Nat) (s : State), system[j]? = some s → ∃ t, t.faulted = none ∧ t.cmd = 0x00 ∧
    t.status = 0x00 ∧ t.result = 0x0000 ∧ t.ilvN = 0x00 ∧ t.ilvD = 0x00 ∧ (∀ i, t.byte? i = none) ∧
    stepInstance system (j, .reset) = system.set j t ∧
    ∀ (a : Action) (p : List Action) (u : State), { t with program := a :: p, line := 1 }.act a = .next u →
      runInstances system [(j, .reset), (j, .load (a :: p)), (j, .step)] = system.set j u)

/-- 20_memory.md R65: if every instance has the invariant, every instance has it after any events. -/
def Obligations.EventsKeepEveryInvariant : Prop :=
  ∀ (system : List State) (events : List (Nat × InstanceEvent)), (∀ s, s ∈ system → s.Inv) →
    (runInstances system events).length = system.length ∧ ∀ t, t ∈ runInstances system events → t.Inv

/-! ## Every command -/

/-- 30_encoding.md R76: a command that needs an unwritten byte faults on the lowest one, its fault is recorded,
nothing else changes and the run stops; with all its bytes written, it completes. -/
def Obligations.UnwrittenOperandFaults : Prop :=
  (∀ (i : Instr) (s : State) (j : Nat), j < operandBytes i s → s.byte? j = none →
    (∀ k, k < j → s.byte? k ≠ none) → exec i s = .fault (.unwrittenRead j)) ∧
  (∀ (i : Instr) (s : State) (j : Nat), s.faulted = none → s.program[s.line]? = some (.wr 0x1C (encode i)) →
    j < operandBytes i s → s.byte? j = none → (∀ k, k < j → s.byte? k ≠ none) →
    step s = .fault (.unwrittenRead j) ∧ stepRecorded s = { s with faulted := some (.unwrittenRead j) }) ∧
  (∀ (i : Instr) (s : State), (∀ j, j < operandBytes i s → s.byte? j ≠ none) → ∃ t, exec i s = .next t)

/-- 44_control.md R201, 30_encoding.md R80: a command ends with STATUS and RESULT written, so that it ends in the same
state whatever they held, and with CMD holding its byte; it writes no BUF bit outside its "writes" column, and no other
part of the machine. -/
def Obligations.CommandWritesOnlyItsColumn : Prop :=
  ∀ (i : Instr) (s t : State), s.runCommand (encode i) = .next t →
    t.cmd = encode i ∧ t.ilvN = s.ilvN ∧ t.ilvD = s.ilvD ∧ t.faulted = s.faulted ∧ t.program = s.program ∧
    t.line = s.line ∧ t.trace = s.trace ∧
    (∀ o, o < (writtenBits i s).1 ∨ (writtenBits i s).2 ≤ o → t.bit? o = s.bit? o) ∧
    (∀ (st : Byte) (r : Half), { s with status := st, result := r }.runCommand (encode i) = .next t)

/-- 10_state.md R24, R26, and the spec's own inference in R25, "At most one of the three is 1 after any command":
after any command byte at most one of ILLEGAL, FAIL and HIT is set, and bits 7:3 read 0; FAIL is set by no command
but an RS decode, HIT by none but DISPATCH, ILLEGAL by no legal command but an interleave command, and RESULT is 0
beside ILLEGAL and FAIL. -/
def Obligations.CommandSetsOneFlagAtMost : Prop :=
  ∀ (s t : State) (c : Byte), s.runCommand c = .next t →
    statusLegal t.status ∧
    (t.illegalFlag = true ∨ t.failFlag = true → t.result = 0) ∧
    (c ≠ 0x70 → c ≠ 0x80 → (∃ i, c = encode i) → t.illegalFlag = false) ∧
    (c ≠ 0x50 → c ≠ 0x51 → c ≠ 0x52 → t.failFlag = false) ∧
    (c ≠ 0x90 → c ≠ 0x91 → c ≠ 0x92 → t.hitFlag = false)

/-- 10_state.md R33, 40_golay.md R111, R117: the outputs of a command are a function of the bits of BUF its rule
reads, and of ILV_N and ILV_D for the interleave commands only. -/
def Obligations.OutputsDependOnlyOnOperands : Prop :=
  ∀ (i : Instr) (s s' t t' : State), exec i s = .next t → exec i s' = .next t' →
    (i = .deinterleave ∨ i = .interleave → s'.ilvN = s.ilvN ∧ s'.ilvD = s.ilvD) →
    (∀ o, o < operandBits i s → s'.bit? o = s.bit? o) →
    t'.status = t.status ∧ t'.result = t.result ∧
    (∀ o, (writtenBits i s).1 ≤ o → o < (writtenBits i s).2 → t'.bit? o = t.bit? o)

/-- 10_state.md R33, and the spec's own inference 70_reset_and_hazards.md R243, "A command overwrites both": STATUS
and RESULT describe the last command only: no command byte's effect depends on those, or the CMD, it finds. -/
def Obligations.CommandForgetsOldOutputs : Prop :=
  ∀ (s t : State) (c old st : Byte) (r : Half), s.runCommand c = .next t →
    { s with cmd := old, status := st, result := r }.runCommand c = .next t

/-- 44_control.md R200. -/
def Obligations.NopClearsStatusAndResult : Prop :=
  ∀ s : State, exec .nop s = .next { s with status := 0x00, result := 0x0000 }

/-! ## The Golay family -/

/-- 40_golay.md R102: `syn` is the remainder by g: it is additive, it fixes every value of degree below 11, and it
takes every shift of g within 23 bits to 0. -/
def Obligations.SyndromeIsTheRemainder : Prop :=
  (∀ p q : BitVec 23, syn (p ^^^ q) = syn p ^^^ syn q) ∧
  (∀ r : Syndrome, syn (r.setWidth 23) = r) ∧
  (∀ k, k < 12 → syn (0xC75#23 <<< k) = 0)

/-- 40_golay.md R102, R107: the vectors of syndrome 0 are exactly the codewords enc23(d). -/
def Obligations.SyndromeZeroExactlyOnCodewords : Prop :=
  ∀ v : BitVec 23, syn v = 0 ↔ ∃ d : BitVec 12, v = enc23 d

/-- The spec's own inference in 40_golay.md R103, "getSyndrome(pattern, top) = syn(pattern)": the document's
division loop computes the remainder, for both of its starting bits. -/
def Obligations.GetSyndromeIsSyn : Prop :=
  ∀ p top : BitVec 32, top = 0x400000 ∨ top = 0x040000 → p.toNat < 2 * top.toNat →
    getSyndrome p top = (syn (p.setWidth 23)).setWidth 32

/-- 40_golay.md R104: Golay(23,12) is perfect: every syndrome has exactly one pattern of at most three ones. -/
def Obligations.GolayCodeIsPerfect : Prop :=
  (∀ s : Syndrome, ∃ e : BitVec 23, (popcount e ≤ 3 ∧ syn e = s) ∧
    ∀ e' : BitVec 23, popcount e' ≤ 3 ∧ syn e' = s → e' = e) ∧
  Nat.choose 23 0 + Nat.choose 23 1 + Nat.choose 23 2 + Nat.choose 23 3 = 2 ^ 11

/-- 40_golay.md R105, R106: GOLAY23_DEC holds the minimum-weight pattern of each syndrome, GOLAY19_DEC the same
where it lies in the 19 bits and 0 elsewhere. -/
def Obligations.DecodeTablesHoldLeastPatterns : Prop :=
  (∀ s : Syndrome, syn (golay23Dec s) = s ∧ popcount (golay23Dec s) ≤ 3 ∧
    ∀ e : BitVec 23, syn e = s → popcount (golay23Dec s) ≤ popcount e) ∧
  golay23Dec 0 = 0 ∧
  (∀ s : Syndrome,
    (syn ((golay19Dec s).setWidth 23) = s ∧ popcount (golay19Dec s) ≤ 3 ∧ (golay19Dec s).setWidth 23 = golay23Dec s) ∨
    (golay19Dec s = 0 ∧ ∀ e : BitVec 19, popcount e ≤ 3 → syn (e.setWidth 23) ≠ s))

/-- 40_golay.md R113: G2087_DEC on any three written bytes: the 19 received bits are corrected by the pattern of at
most three ones within them that has their syndrome, or by none where there is none, and RESULT is the information
byte. Nothing else changes. -/
def Obligations.G2087DecodesTheReceivedWord : Prop :=
  ∀ (s : State) (b : Nat → Byte), s.Holds 3 b → ∃ e : BitVec 19,
    ((popcount e ≤ 3 ∧ syn (e.setWidth 23) = syn ((fieldOf b 0 19).setWidth 23)) ∨
      (e = 0 ∧ ∀ e' : BitVec 19, popcount e' ≤ 3 → syn (e'.setWidth 23) ≠ syn ((fieldOf b 0 19).setWidth 23))) ∧
    exec .g2087Dec s = .next { s with
      status := 0x00, result := ((fieldOf b 0 19 ^^^ e).extractLsb' 11 8).setWidth 16 }

/-- 40_golay.md R119: G24128_DEC on any three written bytes: the 23 received bits are corrected by the pattern of at
most three ones that has their syndrome, and RESULT is the information word. Nothing else changes. -/
def Obligations.G24128DecodesTheReceivedWord : Prop :=
  ∀ (s : State) (b : Nat → Byte), s.Holds 3 b → ∃ e : BitVec 23,
    popcount e ≤ 3 ∧ syn e = syn (fieldOf b 0 23) ∧
    exec .g24128Dec s = .next { s with
      status := 0x00, result := ((fieldOf b 0 23 ^^^ e).extractLsb' 11 12).setWidth 16 }

/-- The spec's own inference 40_golay.md R112, "G2087_DEC then returns d" (from R104, R106, R113): with at most
three of bit offsets 0..18 of a Golay(20,8,7) codeword flipped, and any of offsets 19..23, G2087_DEC returns the
information byte. -/
def Obligations.G2087CorrectsThreeErrors : Prop :=
  ∀ (s : State) (d : BitVec 8) (low : BitVec 4) (e : BitVec 24), popcount (e.extractLsb' 5 19) ≤ 3 →
    s.Holds 3 (bytesOfWord (((d ++ chk12 d) ++ low) ^^^ e)) →
    exec .g2087Dec s = .next { s with status := 0x00, result := d.setWidth 16 }

/-- The spec's own inference 40_golay.md R118, "G24128_DEC then returns d" (from R104, R105, R119): with at most
three of bit offsets 0..23 of cw24(d) flipped, G24128_DEC returns d. -/
def Obligations.G24128CorrectsThreeErrors : Prop :=
  ∀ (s : State) (d : BitVec 12) (e : BitVec 24), popcount e ≤ 3 → s.Holds 3 (bytesOfWord (cw24 d ^^^ e)) →
    exec .g24128Dec s = .next { s with status := 0x00, result := d.setWidth 16 }

/-- 40_golay.md R116, R109, R114: G2087_ENC writes, after the information byte d, eleven check bits that make a word
of syndrome 0, one bit that makes the 20 bits even, and a low nibble of 0. Nothing else changes. -/
def Obligations.G2087EncodesSystematically : Prop :=
  ∀ (s : State) (d : Byte), s.byte? 0 = some d → ∃ (t : State) (c : BitVec 11) (p : BitVec 1),
    exec .g2087Enc s = .next t ∧
    t.byte? 1 = some (c.extractLsb' 3 8) ∧ t.byte? 2 = some (c.extractLsb' 0 3 ++ p ++ 0#4) ∧
    syn ((d ++ c).setWidth 23) = 0 ∧ popcount (d ++ c ++ p) % 2 = 0 ∧
    SameBytesOutside s t 1 3 ∧ EndsWith s t 0x00 0x0000

/-- 40_golay.md R122, R108: G24128_ENC keeps bits 0..11, and writes eleven check bits that make a word of syndrome 0
and one bit that makes the 24 bits even. BUF[2] need not be written before. Nothing else changes. -/
def Obligations.G24128EncodesSystematically : Prop :=
  ∀ (s : State) (b : Nat → Byte), s.Holds 2 b → ∃ (t : State) (v : BitVec 23) (p : BitVec 1),
    exec .g24128Enc s = .next t ∧ t.Holds 3 (bytesOfWord (v ++ p)) ∧
    v.extractLsb' 11 12 = fieldOf b 0 12 ∧ syn v = 0 ∧ popcount (v ++ p) % 2 = 0 ∧
    SameBytesOutside s t 1 3 ∧ EndsWith s t 0x00 0x0000

/-- The spec's own inference 40_golay.md R123, "For every d, G2087_ENC then G2087_DEC returns d": for both codes,
encoding and then decoding returns the information word. -/
def Obligations.GolayRoundTrip : Prop :=
  (∀ (s : State) (d : Byte), s.byte? 0 = some d → ∃ t u,
    exec .g2087Enc s = .next t ∧ exec .g2087Dec t = .next u ∧ u.result = d.setWidth 16) ∧
  (∀ (s : State) (b : Nat → Byte), s.Holds 2 b → ∃ t u,
    exec .g24128Enc s = .next t ∧ exec .g24128Dec t = .next u ∧ u.result = (fieldOf b 0 12).setWidth 16)

/-- The spec's own inference 40_golay.md R120, "Every cw24(d) has even weight" (from R108): every cw24(d) has even
weight, the non-zero ones at least 8, and three values. -/
def Obligations.Cw24WeightsAndValues : Prop :=
  (∀ d : BitVec 12, popcount (cw24 d) % 2 = 0 ∧ (cw24 d = 0 ∨ 8 ≤ popcount (cw24 d))) ∧
  cw24 0x001 = 0x0018EB ∧ cw24 0x800 = 0x800C75 ∧ cw24 0xFFF = 0xFFFFFF

/-! ## The Reed-Solomon family -/

/-- The spec's own inference in 41_reed_solomon.md R141 (from R140): products of non-zero elements add their
logarithms mod 63; 0 and 1 as usual. -/
def Obligations.FieldProductAddsLogarithms : Prop :=
  (∀ a b : GF64, a ≠ 0 → b ≠ 0 → ∃ i j, gfLog? a = some i ∧ gfLog? b = some j ∧ gfMul a b = gfExp ((i + j) % 63)) ∧
  (∀ a : GF64, gfMul 0 a = 0 ∧ gfMul a 0 = 0 ∧ gfMul 1 a = a)

/-- 41_reed_solomon.md R142, with the values the spec computed from R140: GF_EXP and GF_LOG, as the rule lists them,
and GF_LOG undoes GF_EXP. -/
def Obligations.ExponentAndLogarithmTables : Prop :=
  (List.range 63).map gfExp =
    [0x01, 0x02, 0x04, 0x08, 0x10, 0x20, 0x03, 0x06, 0x0C, 0x18, 0x30, 0x23, 0x05, 0x0A, 0x14, 0x28, 0x13, 0x26,
      0x0F, 0x1E, 0x3C, 0x3B, 0x35, 0x29, 0x11, 0x22, 0x07, 0x0E, 0x1C, 0x38, 0x33, 0x25, 0x09, 0x12, 0x24, 0x0B,
      0x16, 0x2C, 0x1B, 0x36, 0x2F, 0x1D, 0x3A, 0x37, 0x2D, 0x19, 0x32, 0x27, 0x0D, 0x1A, 0x34, 0x2B, 0x15, 0x2A,
      0x17, 0x2E, 0x1F, 0x3E, 0x3F, 0x3D, 0x39, 0x31, 0x21] ∧
  (∀ i, i < 63 → gfExp i = gfPow 0x02 i ∧ gfLog? (gfExp i) = some i) ∧
  (List.range 63).map (fun i => gfLog? (BitVec.ofNat 6 (i + 1))) =
    [0, 1, 6, 2, 12, 7, 26, 3, 32, 13, 35, 8, 48, 27, 18, 4, 24, 33, 16, 14, 52, 36, 54, 9, 45, 49, 38, 28, 41, 19,
      56, 5, 62, 25, 11, 34, 31, 17, 47, 15, 23, 53, 51, 37, 44, 55, 40, 10, 61, 46, 30, 50, 22, 39, 43, 29, 60, 42,
      21, 20, 59, 57, 58].map some

/-- The spec's own inference 41_reed_solomon.md R143 (from R141): every element but 0 has an inverse, and 0 has
none. -/
def Obligations.InversesExist : Prop :=
  (∀ a : GF64, a ≠ 0 → ∃ c, gfInv? a = some c ∧ gfMul a c = 1) ∧ gfInv? 0 = none ∧
  (∀ a b : GF64, b ≠ 0 → ∃ c, gfDiv? a b = some c ∧ gfMul c b = a) ∧ (∀ a : GF64, gfDiv? a 0 = none)

/-- 41_reed_solomon.md R145, with the values the spec computed from R144: the three generator polynomials, as the
rule lists them. -/
def Obligations.GeneratorPolynomials : Prop :=
  rs24169.generator = [0x01, 0x37, 0x3D, 0x25, 0x30, 0x2F, 0x14, 0x06, 0x16] ∧
  rs24121.generator = [0x01, 0x39, 0x05, 0x2D, 0x03, 0x39, 0x1C, 0x30, 0x09, 0x3C, 0x02, 0x21, 0x28] ∧
  rs362017.generator =
    [0x01, 0x1C, 0x1D, 0x02, 0x13, 0x11, 0x17, 0x12, 0x1B, 0x34, 0x22, 0x05, 0x3B, 0x29, 0x26, 0x3B, 0x30]

/-- 41_reed_solomon.md R148, and the spec's own inference in it, "so c is a codeword": encoding k data symbols
appends n−k symbols that make a codeword, and no other n−k symbols do. -/
def Obligations.EncodedWordIsTheSystematicCodeword : Prop :=
  ∀ (code : RsCode) (d e : Instr), (code, d, e) ∈ rsFamily → ∀ data : List GF64, data.length = code.k →
    (code.encode data).take code.k = data ∧ code.isCodeword (code.encode data) = true ∧
    ∀ c : List GF64, code.isCodeword c = true → c.take code.k = data → c = code.encode data

/-- 41_reed_solomon.md R144: the minimum distance of each code is n−k+1: two codewords that differ, differ in at
least that many symbols. -/
def Obligations.RsMinimumDistance : Prop :=
  ∀ (code : RsCode) (d e : Instr), (code, d, e) ∈ rsFamily → ∀ a b : List GF64,
    code.isCodeword a = true → code.isCodeword b = true → a ≠ b → code.n - code.k + 1 ≤ distance a b

/-- 41_reed_solomon.md R160: the decoder succeeds exactly when a codeword lies within t of the received word, and
then with that codeword. -/
def Obligations.RsDecodeIsBoundedDistance : Prop :=
  ∀ (code : RsCode) (d e : Instr), (code, d, e) ∈ rsFamily → ∀ r c : List GF64, r.length = code.n →
    (code.decode r = some c ↔ code.isCodeword c = true ∧ distance r c ≤ (code.n - code.k) / 2)

/-- 41_reed_solomon.md R161, R162, R163, R165 to R167: what each RS decode command does with its written bytes.
Where a codeword lies within t of the received symbols, its data symbols stand in BUF after it, RESULT counts the
symbols that differ and STATUS is 0; the parity bytes and all else stay. Where none does, FAIL is set, RESULT is 0
and BUF stays. -/
def Obligations.RsDecodeCommands : Prop :=
  ∀ (code : RsCode) (d e : Instr), (code, d, e) ∈ rsFamily → ∀ (s : State) (b : Nat → Byte),
    s.Holds (6 * code.n / 8) b →
    (∀ c : List GF64, code.isCodeword c = true → distance (symbolsOf b code.n) c ≤ (code.n - code.k) / 2 →
      ∃ (t : State) (b' : Nat → Byte), exec d s = .next t ∧ t.Holds (6 * code.k / 8) b' ∧
        symbolsOf b' code.k = c.take code.k ∧ SameBytesOutside s t 0 (6 * code.k / 8) ∧
        EndsWith s t 0x00 (BitVec.ofNat 16 (distance (symbolsOf b code.n) c))) ∧
    ((∃ c : List GF64, code.isCodeword c = true ∧ distance (symbolsOf b code.n) c ≤ (code.n - code.k) / 2) ∨
      exec d s = .next { s with status := 0x02, result := 0x0000 })

/-- 41_reed_solomon.md R149 to R151: what each RS encode command does with its written data bytes. BUF then holds
the codeword that begins with them; the data bytes, the bytes after the codeword and all else stay. -/
def Obligations.RsEncodeCommands : Prop :=
  ∀ (code : RsCode) (d e : Instr), (code, d, e) ∈ rsFamily → ∀ (s : State) (b : Nat → Byte),
    s.Holds (6 * code.k / 8) b → ∃ (t : State) (b' : Nat → Byte), exec e s = .next t ∧
      t.Holds (6 * code.n / 8) b' ∧ code.isCodeword (symbolsOf b' code.n) = true ∧
      SameBytesOutside s t (6 * code.k / 8) (6 * code.n / 8) ∧ EndsWith s t 0x00 0x0000

/-- The spec's own inference 41_reed_solomon.md R152, "rs_encode is linear over GF(2^6)": encoding is linear over
GF(2^6). -/
def Obligations.RsParityIsLinear : Prop :=
  ∀ (code : RsCode) (d e : Instr), (code, d, e) ∈ rsFamily → ∀ (a b : List GF64) (c : GF64),
    a.length = code.k → b.length = code.k →
    code.parity (List.zipWith (fun x y => x ^^^ gfMul c y) a b) =
      List.zipWith (fun x y => x ^^^ gfMul c y) (code.parity a) (code.parity b)

/-- The spec's own inference 41_reed_solomon.md R169 (from R148, R160): encoding and then decoding keeps the data
bytes and counts no error; with at most t symbols of the encoded word changed, decoding restores the data bytes and
counts the changed symbols; a word further than t from every codeword is reported as FAIL, with BUF unchanged. -/
def Obligations.RsRoundTripCorrectionDetection : Prop :=
  ∀ (code : RsCode) (d e : Instr), (code, d, e) ∈ rsFamily →
    (∀ (s : State) (b : Nat → Byte), s.Holds (6 * code.k / 8) b → ∃ t u : State,
      exec e s = .next t ∧ exec d t = .next u ∧ u.status = 0x00 ∧ u.result = 0x0000 ∧ u.Holds (6 * code.k / 8) b) ∧
    (∀ (s t u : State) (b b' : Nat → Byte), exec e s = .next t → t.Holds (6 * code.n / 8) b →
      u.Holds (6 * code.n / 8) b' → distance (symbolsOf b' code.n) (symbolsOf b code.n) ≤ (code.n - code.k) / 2 →
      ∃ v : State, exec d u = .next v ∧ v.Holds (6 * code.k / 8) b ∧ v.status = 0x00 ∧
        v.result = BitVec.ofNat 16 (distance (symbolsOf b' code.n) (symbolsOf b code.n))) ∧
    (∀ (s : State) (b : Nat → Byte), s.Holds (6 * code.n / 8) b →
      (∃ c : List GF64, code.isCodeword c = true ∧ distance (symbolsOf b code.n) c ≤ (code.n - code.k) / 2) ∨
      ∃ t : State, exec d s = .next t ∧ t.failFlag = true ∧ ∀ j, t.byte? j = s.byte? j)

/-- The example the spec computed in 41_reed_solomon.md R168 (from R160): the codeword sent is that of R150's example;
the word received differs from it in five symbols and lies four symbols from another codeword. It is decoded to the
other, with success: its last data symbol is 0x19, not the 0x18 that was sent. -/
def Obligations.RsMiscorrectionExample : Prop :=
  ∀ sent received : Nat → Byte,
    sent = ([0x01, 0x23, 0x45, 0x67, 0x89, 0xAB, 0xCD, 0xEF, 0xFE, 0xDC, 0xBA, 0x98, 0x2C, 0xFE, 0x6A, 0xFC, 0xCA,
      0xFD].getD · 0) →
    received = ([0x01, 0x23, 0x45, 0x67, 0x89, 0xAB, 0xCD, 0xEF, 0xFE, 0xDC, 0xBA, 0x99, 0xF3, 0x27, 0x1A, 0xFC, 0xCA,
      0xFD].getD · 0) →
    rs24169.isCodeword (symbolsOf sent 24) = true ∧ distance (symbolsOf sent 24) (symbolsOf received 24) = 5 ∧
    (symbolsOf sent 24)[15]? = some 0x18 ∧
    ∀ s : State, s.Holds 18 received → ∃ (t : State) (other : List GF64), exec .rs24169Dec s = .next t ∧
      rs24169.isCodeword other = true ∧ other ≠ symbolsOf sent 24 ∧ distance (symbolsOf received 24) other = 4 ∧
      other[15]? = some 0x19 ∧ EndsWith s t 0x00 0x0004 ∧ SameBytesOutside s t 0 12 ∧ ∃ after : Nat → Byte, t.Holds 12 after ∧
        symbolsOf after 16 = other.take 16

/-! ## The bit deinterleaver -/

/-- The spec's own inference in 42_interleave.md R181, "w is a bijection on 0 … N−1": for a legal pair, w permutes 0
… N−1, and the positions of N = 12, D = 3. -/
def Obligations.WirePositionIsABijection : Prop :=
  (∀ n d : Nat, 1 ≤ n → n ≤ 216 → 1 ≤ d → n % d = 0 →
    (∀ i, i < n → wirePosition n d i < n) ∧
    (∀ i j, i < n → j < n → wirePosition n d i = wirePosition n d j → i = j) ∧
    (∀ p, p < n → ∃ i, i < n ∧ wirePosition n d i = p)) ∧
  (List.range 12).map (wirePosition 12 3) = [0, 3, 6, 9, 1, 4, 7, 10, 2, 5, 8, 11]

/-- 42_interleave.md R183: DEINTERLEAVE with a legal pair (N, D) and its bytes written: bit i of BUF takes the bit
that stood at w(i) = (i mod R)·D + (i div R), R = N/D, and every other bit stays. Nothing else changes. -/
def Obligations.DeinterleaveMovesTheBits : Prop :=
  ∀ (s : State) (n d : Nat), s.ilvN.toNat = n → s.ilvD.toNat = d → 1 ≤ n → n ≤ 216 → 1 ≤ d → n % d = 0 →
    (∀ j, j < (n + 7) / 8 → s.byte? j ≠ none) → ∃ t, exec .deinterleave s = .next t ∧
      (∀ i, i < n → t.bit? i = s.bit? (i % (n / d) * d + i / (n / d))) ∧
      (∀ o, n ≤ o → t.bit? o = s.bit? o) ∧ EndsWith s t 0x00 0x0000

/-- 42_interleave.md R184: INTERLEAVE with a legal pair (N, D) and its bytes written: bit w(i) of BUF takes the bit
that stood at i, and every bit from N on stays. Nothing else changes. -/
def Obligations.InterleaveMovesTheBits : Prop :=
  ∀ (s : State) (n d : Nat), s.ilvN.toNat = n → s.ilvD.toNat = d → 1 ≤ n → n ≤ 216 → 1 ≤ d → n % d = 0 →
    (∀ j, j < (n + 7) / 8 → s.byte? j ≠ none) → ∃ t, exec .interleave s = .next t ∧
      (∀ i, i < n → t.bit? (i % (n / d) * d + i / (n / d)) = s.bit? i) ∧
      (∀ o, n ≤ o → t.bit? o = s.bit? o) ∧ EndsWith s t 0x00 0x0000

/-- The spec's own inference 42_interleave.md R185 (from R181, R183, R184): for every legal pair, INTERLEAVE then
DEINTERLEAVE, or DEINTERLEAVE then INTERLEAVE, leaves BUF as it was. -/
def Obligations.InterleaveInverse : Prop :=
  ∀ s : State, 1 ≤ s.ilvN.toNat → s.ilvN.toNat ≤ 216 → 1 ≤ s.ilvD.toNat → s.ilvN.toNat % s.ilvD.toNat = 0 →
    (∀ j, j < (s.ilvN.toNat + 7) / 8 → s.byte? j ≠ none) →
    (∃ t u, exec .interleave s = .next t ∧ exec .deinterleave t = .next u ∧ ∀ j, u.byte? j = s.byte? j) ∧
    (∃ t u, exec .deinterleave s = .next t ∧ exec .interleave t = .next u ∧ ∀ j, u.byte? j = s.byte? j)

/-! ## The frame discriminator mux -/

/-- 43_dispatch.md R192, R191: each DISPATCH command with BUF[0] written: RESULT is BUF[0] widened, and HIT says
whether the family knows its low six bits. Nothing else changes. The table is the spec's OPEN parameter: this holds
for every table. -/
def Obligations.DispatchReportsTheDiscriminator : Prop :=
  ∀ (i : Instr) (f : Family), (i, f) ∈ dispatchFamilies → ∀ (s : State) (b : Byte), s.byte? 0 = some b →
    exec i s = .next { s with
      status := if Config.discKnown f (b.extractLsb' 0 6) then 0x04 else 0x00, result := b.setWidth 16 }

/-- 43_dispatch.md R194, and the spec's own inference R196: HIT is the table's entry for the family and the value in
BUF[0][5:0], so a known value reports HIT = 1 and itself in RESULT[5:0]; any other reports HIT = 0, STATUS 0, and
raises nothing. -/
def Obligations.DispatchCorrectness : Prop :=
  ∀ (i : Instr) (f : Family), (i, f) ∈ dispatchFamilies → ∀ (s : State) (b : Byte) (v : BitVec 6),
    s.byte? 0 = some b → b.extractLsb' 0 6 = v → ∃ t, exec i s = .next t ∧
      t.hitFlag = Config.discKnown f v ∧ t.result.extractLsb' 0 6 = v ∧ t.illegalFlag = false ∧ t.failFlag = false ∧
      EndsWith s t t.status t.result ∧ ∀ j, t.byte? j = s.byte? j

/-! ## Bit fields of BUF -/

/-- 00_scope.md R10: writing a field and reading it back gives the value, and no bit outside the field changes. -/
def Obligations.FieldWriteThenRead : Prop :=
  ∀ (w o : Nat) (v : BitVec w) (bit : Nat → Bool),
    readBits (bufWrite bit o v) o w = v ∧
    (∀ o' w', o' + w' ≤ o ∨ o + w ≤ o' → readBits (bufWrite bit o v) o' w' = readBits bit o' w') ∧
    (∀ bytes : List Byte, ∀ p, bufBit bytes p = (bytes.getD (p / 8) 0).getLsbD (7 - p % 8))
end

