-- ==== Sys2Proof/Laws/State.lean ====
section
/-! SUPPORT. One lemma per field per update of State, so that no proof unfolds an update. -/

namespace Sys2Proof.Machine

section setByteFields

variable (s : State) (i : Nat) (v : Byte)

@[simp] theorem State.setByte_buf : (s.setByte i v).buf = s.buf.write i v := rfl

@[simp] theorem State.setByte_cmd : (s.setByte i v).cmd = s.cmd := rfl

@[simp] theorem State.setByte_status : (s.setByte i v).status = s.status := rfl

@[simp] theorem State.setByte_result : (s.setByte i v).result = s.result := rfl

@[simp] theorem State.setByte_ilvN : (s.setByte i v).ilvN = s.ilvN := rfl

@[simp] theorem State.setByte_ilvD : (s.setByte i v).ilvD = s.ilvD := rfl

@[simp] theorem State.setByte_faulted : (s.setByte i v).faulted = s.faulted := rfl

@[simp] theorem State.setByte_program : (s.setByte i v).program = s.program := rfl

@[simp] theorem State.setByte_line : (s.setByte i v).line = s.line := rfl

@[simp] theorem State.setByte_trace : (s.setByte i v).trace = s.trace := rfl

end setByteFields

section completeFields

variable (s : State) (st : Byte) (r : Half)

@[simp] theorem State.complete_buf : (s.complete st r).buf = s.buf := rfl

@[simp] theorem State.complete_cmd : (s.complete st r).cmd = s.cmd := rfl

@[simp] theorem State.complete_status : (s.complete st r).status = st := rfl

@[simp] theorem State.complete_result : (s.complete st r).result = r := rfl

@[simp] theorem State.complete_ilvN : (s.complete st r).ilvN = s.ilvN := rfl

@[simp] theorem State.complete_ilvD : (s.complete st r).ilvD = s.ilvD := rfl

@[simp] theorem State.complete_faulted : (s.complete st r).faulted = s.faulted := rfl

@[simp] theorem State.complete_program : (s.complete st r).program = s.program := rfl

@[simp] theorem State.complete_line : (s.complete st r).line = s.line := rfl

@[simp] theorem State.complete_trace : (s.complete st r).trace = s.trace := rfl

end completeFields

section signalIllegalFields

variable (s : State)

@[simp] theorem State.signalIllegal_buf : (s.signalIllegal).buf = s.buf := rfl

@[simp] theorem State.signalIllegal_cmd : (s.signalIllegal).cmd = s.cmd := rfl

@[simp] theorem State.signalIllegal_status : (s.signalIllegal).status = statusIllegal := rfl

@[simp] theorem State.signalIllegal_result : (s.signalIllegal).result = 0x0000 := rfl

@[simp] theorem State.signalIllegal_ilvN : (s.signalIllegal).ilvN = s.ilvN := rfl

@[simp] theorem State.signalIllegal_ilvD : (s.signalIllegal).ilvD = s.ilvD := rfl

@[simp] theorem State.signalIllegal_faulted : (s.signalIllegal).faulted = s.faulted := rfl

@[simp] theorem State.signalIllegal_program : (s.signalIllegal).program = s.program := rfl

@[simp] theorem State.signalIllegal_line : (s.signalIllegal).line = s.line := rfl

@[simp] theorem State.signalIllegal_trace : (s.signalIllegal).trace = s.trace := rfl

end signalIllegalFields

section resetBlockFields

variable (s : State)

@[simp] theorem State.resetBlock_buf : (s.resetBlock).buf = [] := rfl

@[simp] theorem State.resetBlock_cmd : (s.resetBlock).cmd = 0x00 := rfl

@[simp] theorem State.resetBlock_status : (s.resetBlock).status = 0x00 := rfl

@[simp] theorem State.resetBlock_result : (s.resetBlock).result = 0x0000 := rfl

@[simp] theorem State.resetBlock_ilvN : (s.resetBlock).ilvN = 0x00 := rfl

@[simp] theorem State.resetBlock_ilvD : (s.resetBlock).ilvD = 0x00 := rfl

@[simp] theorem State.resetBlock_faulted : (s.resetBlock).faulted = none := rfl

@[simp] theorem State.resetBlock_program : (s.resetBlock).program = s.program := rfl

@[simp] theorem State.resetBlock_line : (s.resetBlock).line = s.line := rfl

@[simp] theorem State.resetBlock_trace : (s.resetBlock).trace = s.trace := rfl

end resetBlockFields

section recordFaultFields

variable (s : State) (r : Fault)

@[simp] theorem State.recordFault_buf : (s.recordFault r).buf = s.buf := rfl

@[simp] theorem State.recordFault_cmd : (s.recordFault r).cmd = s.cmd := rfl

@[simp] theorem State.recordFault_status : (s.recordFault r).status = s.status := rfl

@[simp] theorem State.recordFault_result : (s.recordFault r).result = s.result := rfl

@[simp] theorem State.recordFault_ilvN : (s.recordFault r).ilvN = s.ilvN := rfl

@[simp] theorem State.recordFault_ilvD : (s.recordFault r).ilvD = s.ilvD := rfl

@[simp] theorem State.recordFault_faulted : (s.recordFault r).faulted = some (s.faulted.getD r) := rfl

@[simp] theorem State.recordFault_program : (s.recordFault r).program = s.program := rfl

@[simp] theorem State.recordFault_line : (s.recordFault r).line = s.line := rfl

@[simp] theorem State.recordFault_trace : (s.recordFault r).trace = s.trace := rfl

end recordFaultFields

section nextLineFields

variable (s : State)

@[simp] theorem State.nextLine_buf : (s.nextLine).buf = s.buf := rfl

@[simp] theorem State.nextLine_cmd : (s.nextLine).cmd = s.cmd := rfl

@[simp] theorem State.nextLine_status : (s.nextLine).status = s.status := rfl

@[simp] theorem State.nextLine_result : (s.nextLine).result = s.result := rfl

@[simp] theorem State.nextLine_ilvN : (s.nextLine).ilvN = s.ilvN := rfl

@[simp] theorem State.nextLine_ilvD : (s.nextLine).ilvD = s.ilvD := rfl

@[simp] theorem State.nextLine_faulted : (s.nextLine).faulted = s.faulted := rfl

@[simp] theorem State.nextLine_program : (s.nextLine).program = s.program := rfl

@[simp] theorem State.nextLine_line : (s.nextLine).line = s.line + 1 := rfl

@[simp] theorem State.nextLine_trace : (s.nextLine).trace = s.trace := rfl

end nextLineFields

section recordFields

variable (s : State) (off : Offset) (v : Byte)

@[simp] theorem State.record_buf : (s.record off v).buf = s.buf := rfl

@[simp] theorem State.record_cmd : (s.record off v).cmd = s.cmd := rfl

@[simp] theorem State.record_status : (s.record off v).status = s.status := rfl

@[simp] theorem State.record_result : (s.record off v).result = s.result := rfl

@[simp] theorem State.record_ilvN : (s.record off v).ilvN = s.ilvN := rfl

@[simp] theorem State.record_ilvD : (s.record off v).ilvD = s.ilvD := rfl

@[simp] theorem State.record_faulted : (s.record off v).faulted = s.faulted := rfl

@[simp] theorem State.record_program : (s.record off v).program = s.program := rfl

@[simp] theorem State.record_line : (s.record off v).line = s.line := rfl

@[simp] theorem State.record_trace : (s.record off v).trace = s.trace ++ [(off, v)] := rfl

end recordFields

section loadProgramFields

variable (s : State) (p : List Action)

@[simp] theorem State.loadProgram_buf : (s.loadProgram p).buf = s.buf := rfl

@[simp] theorem State.loadProgram_cmd : (s.loadProgram p).cmd = s.cmd := rfl

@[simp] theorem State.loadProgram_status : (s.loadProgram p).status = s.status := rfl

@[simp] theorem State.loadProgram_result : (s.loadProgram p).result = s.result := rfl

@[simp] theorem State.loadProgram_ilvN : (s.loadProgram p).ilvN = s.ilvN := rfl

@[simp] theorem State.loadProgram_ilvD : (s.loadProgram p).ilvD = s.ilvD := rfl

@[simp] theorem State.loadProgram_faulted : (s.loadProgram p).faulted = s.faulted := rfl

@[simp] theorem State.loadProgram_trace : (s.loadProgram p).trace = s.trace := rfl

@[simp] theorem State.loadProgram_program : (s.loadProgram p).program = p := rfl

@[simp] theorem State.loadProgram_line : (s.loadProgram p).line = 0 := rfl

end loadProgramFields

section withFetchWordFields

variable (s : State) (nbits w : Nat)

@[simp] theorem State.withFetchWord_buf : (s.withFetchWord nbits w).buf = s.buf := rfl

@[simp] theorem State.withFetchWord_cmd : (s.withFetchWord nbits w).cmd = s.cmd := rfl

@[simp] theorem State.withFetchWord_status : (s.withFetchWord nbits w).status = s.status := rfl

@[simp] theorem State.withFetchWord_result : (s.withFetchWord nbits w).result = s.result := rfl

@[simp] theorem State.withFetchWord_ilvN : (s.withFetchWord nbits w).ilvN = s.ilvN := rfl

@[simp] theorem State.withFetchWord_ilvD : (s.withFetchWord nbits w).ilvD = s.ilvD := rfl

@[simp] theorem State.withFetchWord_faulted : (s.withFetchWord nbits w).faulted = none := rfl

@[simp] theorem State.withFetchWord_program : (s.withFetchWord nbits w).program = commandProgram (BitVec.ofNat 8 (w % 2 ^ nbits)) := rfl

@[simp] theorem State.withFetchWord_line : (s.withFetchWord nbits w).line = 0 := rfl

@[simp] theorem State.withFetchWord_trace : (s.withFetchWord nbits w).trace = s.trace := rfl

end withFetchWordFields

section setBytesFields

@[simp] theorem State.setBytes_cmd (s : State) (i : Nat) (bs : List Byte) : (s.setBytes i bs).cmd = s.cmd := by
  induction bs generalizing s i with
  | nil => rfl
  | cons b bs ih => exact (ih ..).trans rfl

@[simp] theorem State.setBytes_status (s : State) (i : Nat) (bs : List Byte) : (s.setBytes i bs).status = s.status := by
  induction bs generalizing s i with
  | nil => rfl
  | cons b bs ih => exact (ih ..).trans rfl

@[simp] theorem State.setBytes_result (s : State) (i : Nat) (bs : List Byte) : (s.setBytes i bs).result = s.result := by
  induction bs generalizing s i with
  | nil => rfl
  | cons b bs ih => exact (ih ..).trans rfl

@[simp] theorem State.setBytes_ilvN (s : State) (i : Nat) (bs : List Byte) : (s.setBytes i bs).ilvN = s.ilvN := by
  induction bs generalizing s i with
  | nil => rfl
  | cons b bs ih => exact (ih ..).trans rfl

@[simp] theorem State.setBytes_ilvD (s : State) (i : Nat) (bs : List Byte) : (s.setBytes i bs).ilvD = s.ilvD := by
  induction bs generalizing s i with
  | nil => rfl
  | cons b bs ih => exact (ih ..).trans rfl

@[simp] theorem State.setBytes_faulted (s : State) (i : Nat) (bs : List Byte) : (s.setBytes i bs).faulted = s.faulted := by
  induction bs generalizing s i with
  | nil => rfl
  | cons b bs ih => exact (ih ..).trans rfl

@[simp] theorem State.setBytes_program (s : State) (i : Nat) (bs : List Byte) : (s.setBytes i bs).program = s.program := by
  induction bs generalizing s i with
  | nil => rfl
  | cons b bs ih => exact (ih ..).trans rfl

@[simp] theorem State.setBytes_line (s : State) (i : Nat) (bs : List Byte) : (s.setBytes i bs).line = s.line := by
  induction bs generalizing s i with
  | nil => rfl
  | cons b bs ih => exact (ih ..).trans rfl

@[simp] theorem State.setBytes_trace (s : State) (i : Nat) (bs : List Byte) : (s.setBytes i bs).trace = s.trace := by
  induction bs generalizing s i with
  | nil => rfl
  | cons b bs ih => exact (ih ..).trans rfl

end setBytesFields

@[simp] theorem State.nextLine_ilvLegal (s : State) : s.nextLine.ilvLegal = s.ilvLegal := rfl

@[simp] theorem State.nextLine_byte? (s : State) (i : Nat) : s.nextLine.byte? i = s.byte? i := rfl

@[simp] theorem State.complete_byte? (s : State) (st : Byte) (r : Half) (i : Nat) :
    (s.complete st r).byte? i = s.byte? i := rfl

@[simp] theorem State.complete_bit? (s : State) (st : Byte) (r : Half) (o : Nat) :
    (s.complete st r).bit? o = s.bit? o := rfl

@[simp] theorem State.signalIllegal_byte? (s : State) (i : Nat) : s.signalIllegal.byte? i = s.byte? i := rfl

@[simp] theorem State.resetBlock_byte? (s : State) (i : Nat) : s.resetBlock.byte? i = none := rfl

@[simp] theorem State.record_byte? (s : State) (off : Offset) (v : Byte) (i : Nat) :
    (s.record off v).byte? i = s.byte? i := rfl

end Sys2Proof.Machine
end

