-- ==== Sys2Proof/Laws/Memory.lean ====
section
/-! SUPPORT. What the operations on BUF do: a read after a write, the canonical form, the operand check. -/

namespace Sys2Proof.Machine

/-- A read after a write gives the value written there, and what was there elsewhere, in any memory. -/
theorem Memory.read_write (m : Memory) (a b : Nat) (v : Byte) :
    (Memory.write m a v).read b = if b = a then some v else m.read b := by
  induction m with
  | nil => rfl
  | cons c m ih =>
    obtain ⟨k, w⟩ := c
    by_cases h1 : a < k
    · simp only [Memory.write, if_pos h1, Memory.read]
    · by_cases h2 : a = k
      · subst h2
        simp only [Memory.write, if_neg h1, if_pos, Memory.read]
        split_ifs <;> rfl
      · simp only [Memory.write, if_neg h1, if_neg h2, Memory.read, ih]
        by_cases h3 : b = k
        · rw [if_pos h3, if_pos h3, if_neg (by omega)]
        · rw [if_neg h3, if_neg h3]

@[simp] theorem Memory.read_write_same (m : Memory) (a : Nat) (v : Byte) : (Memory.write m a v).read a = some v := by
  simp [Memory.read_write]

theorem Memory.read_write_other (m : Memory) {a b : Nat} (v : Byte) (h : b ≠ a) :
    (Memory.write m a v).read b = m.read b := by
  simp [Memory.read_write, h]

/-- What a write's entries are: the one written, or an entry that was there. -/
theorem Memory.mem_write {m : Memory} {a : Nat} {v : Byte} {c : Host.Cell} (h : c ∈ Memory.write m a v) :
    c = (a, v) ∨ c ∈ m := by
  induction m with
  | nil => exact .inl (List.mem_singleton.mp h)
  | cons d m ih =>
    obtain ⟨k, w⟩ := d
    unfold Memory.write at h
    split_ifs at h with h1 h2
    · simpa using h
    · rcases List.mem_cons.mp h with h | h
      · exact .inl h
      · exact .inr (List.mem_cons_of_mem _ h)
    · rcases List.mem_cons.mp h with h | h
      · exact .inr (h ▸ List.mem_cons_self)
      · exact (ih h).imp_right (List.mem_cons_of_mem _)

/-- A write to one of BUF's indices keeps the canonical form. -/
theorem Memory.write_wf {m : Memory} {a : Nat} (v : Byte) (hm : m.wf) (ha : a < Config.bufBytes) :
    (Memory.write m a v).wf := by
  refine ⟨?_, fun c hc => (Memory.mem_write hc).elim (fun h => h ▸ ha) (hm.2 c)⟩
  have hp := hm.1
  clear hm
  induction m with
  | nil => exact List.pairwise_singleton _ _
  | cons d m ih =>
    obtain ⟨k, w⟩ := d
    obtain ⟨hk, hm⟩ := List.pairwise_cons.mp hp
    unfold Memory.write
    split_ifs with h1 h2
    · refine List.pairwise_cons.mpr ⟨fun c hc => ?_, hp⟩
      rcases List.mem_cons.mp hc with h | h
      · exact h ▸ h1
      · exact h1.trans (hk c h)
    · subst h2
      exact List.pairwise_cons.mpr ⟨hk, hm⟩
    · refine List.pairwise_cons.mpr ⟨fun c hc => ?_, ih hm⟩
      rcases Memory.mem_write hc with h | h
      · subst h
        simp only
        omega
      · exact hk c h

/-- Reset's memory has the canonical form. -/
theorem Memory.wf_nil : Memory.wf [] := ⟨List.Pairwise.nil, fun _ h => absurd h List.not_mem_nil⟩

theorem reset_buf_wf : State.reset.buf.wf := Memory.wf_nil

theorem State.resetBlock_buf_wf (s : State) : s.resetBlock.buf.wf := Memory.wf_nil

/-- Two memories in canonical form that read alike are equal. -/
theorem Memory.eq_of_read_eq {m m' : Memory} (hm : m.wf) (hm' : m'.wf) (h : ∀ a, m.read a = m'.read a) : m = m' := by
  have absent : ∀ (k : Nat) (l : Memory), (∀ c ∈ l, k < c.1) → l.read k = none := by
    intro k l
    induction l with
    | nil => intro _; rfl
    | cons d l ih =>
      intro hk
      have hd : k < d.1 := hk d List.mem_cons_self
      simp only [Memory.read]
      rw [if_neg (by omega)]
      exact ih fun c hc => hk c (List.mem_cons_of_mem _ hc)
  have go : ∀ (m m' : Memory), m.Pairwise (fun x y => x.1 < y.1) → m'.Pairwise (fun x y => x.1 < y.1) →
      (∀ a, m.read a = m'.read a) → m = m' := by
    intro m
    induction m with
    | nil =>
      intro m' _ _ h
      cases m' with
      | nil => rfl
      | cons d m' => have := h d.1; simp [Memory.read] at this
    | cons c m ih =>
      intro m' hp hp' h
      cases m' with
      | nil => have := h c.1; simp [Memory.read] at this
      | cons d m' =>
        obtain ⟨k, w⟩ := c
        obtain ⟨k', w'⟩ := d
        obtain ⟨hk, hm⟩ := List.pairwise_cons.mp hp
        obtain ⟨hk', hm'⟩ := List.pairwise_cons.mp hp'
        have e : k = k' := by
          rcases Nat.lt_trichotomy k k' with hlt | heq | hgt
          · have h1 := h k
            have h2 := absent k ((k', w') :: m') (by
              intro c hc
              rcases List.mem_cons.mp hc with hc | hc
              · exact hc ▸ hlt
              · exact hlt.trans (hk' c hc))
            rw [h2] at h1
            simp [Memory.read] at h1
          · exact heq
          · have h1 := h k'
            have h2 := absent k' ((k, w) :: m) (by
              intro c hc
              rcases List.mem_cons.mp hc with hc | hc
              · exact hc ▸ hgt
              · exact hgt.trans (hk c hc))
            rw [h2] at h1
            simp [Memory.read] at h1
        subst e
        have ew : w = w' := by have := h k; simpa [Memory.read] using this
        subst ew
        congr 1
        refine ih m' hm hm' fun a => ?_
        by_cases ha : a = k
        · subst ha
          rw [absent a m hk, absent a m' hk']
        · have := h a
          simpa [Memory.read, ha] using this
  exact go m m' hm.1 hm'.1 h

@[simp] theorem State.setByte_byte? (s : State) (i j : Nat) (v : Byte) :
    (s.setByte i v).byte? j = if j = i then some v else s.byte? j := Memory.read_write ..

/-- What writing a run of bytes does: the bytes of the run hold the list's, and every other byte stays. -/
theorem State.setBytes_byte? (s : State) (i j : Nat) (bs : List Byte) :
    (s.setBytes i bs).byte? j = if i ≤ j ∧ j < i + bs.length then bs[j - i]? else s.byte? j := by
  induction bs generalizing s i with
  | nil => simp only [State.setBytes, List.length_nil]; rw [if_neg (by omega)]
  | cons b bs ih =>
    simp only [State.setBytes, List.length_cons, ih, State.setByte_byte?]
    by_cases h : j = i
    · subst h
      rw [if_neg (by omega), if_pos rfl, if_pos (by omega)]
      simp
    · by_cases h' : i + 1 ≤ j ∧ j < i + 1 + bs.length
      · rw [if_pos h', if_pos (by omega)]
        obtain ⟨d, rfl⟩ : ∃ d, j = i + 1 + d := ⟨j - (i + 1), by omega⟩
        rw [show i + 1 + d - i = d + 1 by omega, show i + 1 + d - (i + 1) = d by omega]
        rfl
      · rw [if_neg h', if_neg h, if_neg (by omega)]

/-- Writing a run of bytes inside BUF keeps the canonical form. -/
theorem State.setBytes_wf {s : State} {i : Nat} {bs : List Byte} (hs : s.buf.wf) (h : i + bs.length ≤ Config.bufBytes) :
    (s.setBytes i bs).buf.wf := by
  induction bs generalizing s i with
  | nil => exact hs
  | cons b bs ih =>
    simp only [List.length_cons] at h
    exact ih (s := s.setByte i b) (Memory.write_wf b hs (by omega)) (by omega)

/-- The operand check answers the bytes exactly when all of them are written (30_encoding.md R76). -/
theorem State.readBytes_ok_iff (s : State) (n : Nat) (bs : List Byte) :
    s.readBytes n = .ok bs ↔ bs.length = n ∧ ∀ j, j < n → s.byte? j = bs[j]? := by
  induction n generalizing bs with
  | zero => simp [State.readBytes, eq_comm (a := [])]
  | succ n ih =>
    simp only [State.readBytes]
    constructor
    · intro h
      split at h
      · cases h
      next cs hcs =>
        split at h
        next b hb =>
          cases h
          obtain ⟨hl, hj⟩ := (ih cs).mp hcs
          refine ⟨by simp [hl], fun j hjn => ?_⟩
          by_cases e : j = n
          · subst e
            rw [hb, List.getElem?_append_right (by omega), hl]
            simp
          · rw [List.getElem?_append_left (by omega)]
            exact hj j (by omega)
        · cases h
    · rintro ⟨hl, hj⟩
      have hne : bs ≠ [] := by rintro rfl; simp at hl
      have hcs : s.readBytes n = .ok bs.dropLast := (ih _).mpr ⟨by simp [hl], fun j hjn => by
        rw [hj j (by omega), List.getElem?_dropLast, if_pos (by omega)]⟩
      have hb : s.byte? n = some (bs.getLast hne) := by
        rw [hj n (by omega), List.getElem?_eq_getElem (by omega), List.getLast_eq_getElem]
        simp [hl]
      rw [hcs]
      simp only [hb, List.dropLast_append_getLast]

/-- A fault of the operand check names an unwritten byte below which every byte is written. -/
theorem State.readBytes_error {s : State} {n i : Nat} (h : s.readBytes n = .error i) :
    i < n ∧ s.byte? i = none ∧ ∀ j, j < i → (s.byte? j).isSome := by
  induction n with
  | zero => cases h
  | succ n ih =>
    simp only [State.readBytes] at h
    split at h
    next k hk =>
      cases h
      obtain ⟨h1, h2⟩ := ih hk
      exact ⟨by omega, h2⟩
    next bs hbs =>
      split at h
      · cases h
      next hb =>
        cases h
        obtain ⟨hl, hall⟩ := (State.readBytes_ok_iff s _ bs).mp hbs
        exact ⟨by omega, hb, fun j hj => by rw [hall j hj, List.getElem?_eq_getElem (by omega)]; rfl⟩

/-- The operand check faults exactly on the lowest unwritten byte (30_encoding.md R76). -/
theorem State.readBytes_error_iff (s : State) (n i : Nat) :
    s.readBytes n = .error i ↔ i < n ∧ s.byte? i = none ∧ ∀ j, j < i → (s.byte? j).isSome := by
  refine ⟨State.readBytes_error, fun ⟨h1, h2, h3⟩ => ?_⟩
  cases hr : s.readBytes n with
  | ok bs =>
    obtain ⟨hl, hall⟩ := (State.readBytes_ok_iff s n bs).mp hr
    rw [hall i h1, List.getElem?_eq_getElem (by omega)] at h2
    cases h2
  | error k =>
    obtain ⟨-, k2, k3⟩ := State.readBytes_error hr
    rcases Nat.lt_trichotomy k i with h | h | h
    · have := h3 k h; rw [k2] at this; cases this
    · rw [h]
    · have := k3 i h; rw [h2] at this; cases this

/-- What a command that checks its operands can do: run on the bytes, or fault on the lowest unwritten one. -/
theorem State.withOperands_cases (s : State) (n : Nat) (run : List Byte → State) :
    (∃ bs, bs.length = n ∧ (∀ j, j < n → s.byte? j = bs[j]?) ∧ s.withOperands n run = .next (run bs)) ∨
    (∃ i, i < n ∧ s.byte? i = none ∧ (∀ j, j < i → (s.byte? j).isSome) ∧
      s.withOperands n run = .fault (.unwrittenRead i)) := by
  unfold State.withOperands
  cases h : s.readBytes n with
  | ok bs =>
    obtain ⟨hl, hall⟩ := (State.readBytes_ok_iff s n bs).mp h
    exact .inl ⟨bs, hl, hall, rfl⟩
  | error i =>
    obtain ⟨h1, h2, h3⟩ := State.readBytes_error h
    exact .inr ⟨i, h1, h2, h3, rfl⟩

/-- With its operands written, a command runs on them. -/
theorem State.withOperands_of_holds {s : State} {n : Nat} {b : Nat → Byte} (h : s.Holds n b) (run : List Byte → State) :
    s.withOperands n run = .next (run ((List.range n).map b)) := by
  have hr : s.readBytes n = .ok ((List.range n).map b) :=
    (State.readBytes_ok_iff s n _).mpr ⟨by simp, fun j hj => by simp [h j hj, hj]⟩
  simp only [State.withOperands, hr]

end Sys2Proof.Machine
end

