-- ==== Sys2Proof/Laws/Operands.lean ====
section
/-! SUPPORT. What reading and writing bit fields of BUF does (00_scope.md R10). -/

namespace Sys2Proof.Machine

/-- Bit k of a field read from offset o, most significant first, is the bit at offset o + k. -/
theorem getMsbD_readBits (bit : Nat → Bool) (o w k : Nat) :
    (readBits bit o w).getMsbD k = (decide (k < w) && bit (o + k)) := by
  induction w with
  | zero => simp [readBits]
  | succ w ih =>
    rw [readBits, BitVec.getMsbD_concat]
    by_cases h : k < w
    · rw [if_pos h, ih]
      simp [h, Nat.lt_succ_of_lt h]
    · rw [if_neg h]
      by_cases e : k = w
      · simp [e]
      · simp only [show ¬ k < w + 1 by omega, decide_false, Bool.false_and, Bool.and_eq_false_imp, decide_eq_true_eq]
        omega

/-- Two field reads agree when the bits they read do. -/
theorem readBits_congr {bit bit' : Nat → Bool} {o o' w : Nat} (h : ∀ k, k < w → bit (o + k) = bit' (o' + k)) :
    readBits bit o w = readBits bit' o' w := by
  induction w with
  | zero => rfl
  | succ w ih => rw [readBits, readBits, ih fun k hk => h k (by omega), h w (by omega)]

/-- A field that covers a whole vector is that vector. -/
theorem readBits_getMsbD {w : Nat} (v : BitVec w) : readBits v.getMsbD 0 w = v := by
  apply BitVec.eq_of_getMsbD_eq
  intro k hk
  simp [getMsbD_readBits, hk]

/-- Within the field written, the bits are the value's; elsewhere they stay. -/
theorem bufWrite_apply {w : Nat} (bit : Nat → Bool) (o : Nat) (v : BitVec w) (p : Nat) :
    bufWrite bit o v p = if o ≤ p ∧ p < o + w then v.getMsbD (p - o) else bit p := rfl

@[simp] theorem bytesOf_length (bit : Nat → Bool) (first count : Nat) : (bytesOf bit first count).length = count := by
  simp [bytesOf]

theorem bytesOf_getElem? {bit : Nat → Bool} {first count i : Nat} (h : i < count) :
    (bytesOf bit first count)[i]? = some (readBits bit (8 * (first + i)) 8) := by
  simp [bytesOf, h]

/-- Writing a run of symbols: bit p of the run is its symbol's bit, and every other bit stays. -/
theorem writeSymbols_apply (bit : Nat → Bool) (j : Nat) (cs : List GF64) (p : Nat) :
    writeSymbols bit j cs p =
      if 6 * j ≤ p ∧ p < 6 * (j + cs.length) then (cs.getD ((p - 6 * j) / 6) 0).getMsbD (p % 6) else bit p := by
  induction cs generalizing bit j with
  | nil =>
    rw [writeSymbols, if_neg]
    simp only [List.length_nil]
    omega
  | cons c cs ih =>
    simp only [writeSymbols, ih, List.length_cons]
    by_cases h : 6 * (j + 1) ≤ p ∧ p < 6 * (j + 1 + cs.length)
    · rw [if_pos h, if_pos (by omega), show (p - 6 * j) / 6 = (p - 6 * (j + 1)) / 6 + 1 by omega]
      rfl
    · rw [if_neg h, bufWrite_apply]
      by_cases h' : 6 * j ≤ p ∧ p < 6 * j + 6
      · rw [if_pos h', if_pos (by omega), show (p - 6 * j) / 6 = 0 by omega]
        rw [show p - 6 * j = p % 6 by omega]
        rfl
      · rw [if_neg h', if_neg (by omega)]

/-- A bit of a byte sequence is its byte's bit. -/
theorem bufBit_of_getElem? {bytes : List Byte} {o : Nat} {b : Byte} (h : bytes[o / 8]? = some b) :
    bufBit bytes o = b.getMsbD (o % 8) := by
  simp [bufBit, List.getD, h]

/-- The bits of a run of bytes just written are those the bytes were made of; every other bit stays. -/
theorem State.setBytes_bytesOf_bit? (s : State) (bit : Nat → Bool) (first count o : Nat) :
    (s.setBytes first (bytesOf bit first count)).bit? o =
      if 8 * first ≤ o ∧ o < 8 * (first + count) then some (bit o) else s.bit? o := by
  simp only [State.bit?, State.setBytes_byte?, bytesOf_length]
  by_cases h : 8 * first ≤ o ∧ o < 8 * (first + count)
  · rw [if_pos h, if_pos (by omega), bytesOf_getElem? (by omega), Option.map_some, getMsbD_readBits]
    have e : 8 * (first + (o / 8 - first)) + o % 8 = o := by omega
    simp [e, Nat.mod_lt]
  · rw [if_neg h, if_neg (by omega)]

/-- The bit of BUF at an offset is the bit of the bytes the operand check read. -/
theorem State.bit?_eq_bufBit {s : State} {n o : Nat} {bs : List Byte} (hl : bs.length = n)
    (h : ∀ j, j < n → s.byte? j = bs[j]?) (ho : o < 8 * n) : s.bit? o = some (bufBit bs o) := by
  have ho' : o / 8 < bs.length := by omega
  rw [State.bit?, h _ (by omega), List.getElem?_eq_getElem ho', Option.map_some,
    bufBit_of_getElem? (List.getElem?_eq_getElem ho')]

/-- The list of a function's first bytes has the function's bits. -/
theorem bufBit_map_range {b : Nat → Byte} {n o : Nat} (ho : o < 8 * n) :
    bufBit ((List.range n).map b) o = bitOf b o := by
  rw [bitOf]
  exact bufBit_of_getElem? (by simp [show o / 8 < n by omega])

/-- A field of the list of a function's first bytes is the function's field. -/
theorem bufRead_map_range {b : Nat → Byte} {n o w : Nat} (h : o + w ≤ 8 * n) :
    bufRead ((List.range n).map b) o w = fieldOf b o w :=
  readBits_congr fun _ hk => bufBit_map_range (by omega)

/-- The symbols of the list of a function's first bytes are the function's. -/
theorem readSymbols_map_range {b : Nat → Byte} {n count : Nat} (h : 6 * count ≤ 8 * n) :
    readSymbols ((List.range n).map b) count = symbolsOf b count := by
  refine List.map_congr_left fun j hj => bufRead_map_range ?_
  have := List.mem_range.mp hj
  omega

end Sys2Proof.Machine
end

