-- ==== Sys2Proof/Laws/Commands.lean ====
section
/-! SUPPORT. What each command does when its operands are written, in one equation, and what every command can do at
all. -/

namespace Sys2Proof.Machine

@[simp] theorem statusNone_eq : statusNone = 0x00 := by decide

@[simp] theorem statusIllegal_eq : statusIllegal = 0x01 := by decide

@[simp] theorem statusFail_eq : statusFail = 0x02 := by decide

@[simp] theorem statusHit_eq (known : Bool) : statusHit known = if known then 0x04 else 0x00 := by
  cases known <;> decide

theorem execNop_eq (s : State) : execNop s = .next (s.complete 0x00 0x0000) := by rw [execNop, statusNone_eq]

theorem execG2087Dec_of_holds {s : State} {b : Nat → Byte} (h : s.Holds 3 b) :
    execG2087Dec s = .next (s.complete 0x00 ((golay2087Info (fieldOf b 0 19)).setWidth 16)) := by
  rw [execG2087Dec, State.withOperands_of_holds h, bufRead_map_range (by omega), statusNone_eq]

theorem execG24128Dec_of_holds {s : State} {b : Nat → Byte} (h : s.Holds 3 b) :
    execG24128Dec s = .next (s.complete 0x00 ((golay24128Info (fieldOf b 0 23)).setWidth 16)) := by
  rw [execG24128Dec, State.withOperands_of_holds h, bufRead_map_range (by omega), statusNone_eq]

theorem execG2087Enc_of_holds {s : State} {b : Nat → Byte} (h : s.Holds 1 b) :
    execG2087Enc s = .next ((s.setBytes 1 [(chk12 (fieldOf b 0 8)).extractLsb' 4 8,
      (chk12 (fieldOf b 0 8)).extractLsb' 0 4 ++ 0#4]).complete 0x00 0x0000) := by
  rw [execG2087Enc, State.withOperands_of_holds h, bufRead_map_range (by omega), statusNone_eq]

theorem execG24128Enc_of_holds {s : State} {b : Nat → Byte} (h : s.Holds 2 b) :
    execG24128Enc s = .next ((s.setBytes 1 (bytesOf (bufWrite (bufBit ((List.range 2).map b)) 12
      ((cw24 (fieldOf b 0 12)).extractLsb' 0 12)) 1 2)).complete 0x00 0x0000) := by
  rw [execG24128Enc, State.withOperands_of_holds h, bufRead_map_range (by omega), statusNone_eq]

theorem rsDecodeBytes_of_decode {code : RsCode} {s : State} {bytes : List Byte} {c : List GF64}
    (h : code.decode (readSymbols bytes code.n) = some c) :
    rsDecodeBytes code s bytes =
      (s.setBytes 0 (bytesOf (writeSymbols (bufBit bytes) 0 (c.take code.k)) 0 (6 * code.k / 8))).complete 0x00
        (BitVec.ofNat 16 (distance (readSymbols bytes code.n) c)) := by
  simp only [rsDecodeBytes, h, statusNone_eq]

theorem rsDecodeBytes_of_fail {code : RsCode} {s : State} {bytes : List Byte}
    (h : code.decode (readSymbols bytes code.n) = none) : rsDecodeBytes code s bytes = s.complete 0x02 0x0000 := by
  simp only [rsDecodeBytes, h, statusFail_eq]

/-- What the decoder answers is a codeword, within t of the word (41_reed_solomon.md R160). -/
theorem RsCode.decode_some {code : RsCode} {word c : List GF64} (h : code.decode word = some c) :
    code.isCodeword c = true ∧ distance word c ≤ code.t := by
  simp only [RsCode.decode, Option.bind_eq_some_iff] at h
  obtain ⟨d, -, h⟩ := h
  split_ifs at h with hc
  cases h
  exact hc

theorem execRs24121Dec_of_holds {s : State} {b : Nat → Byte} (h : s.Holds 18 b) :
    execRs24121Dec s = .next (rsDecodeBytes rs24121 s ((List.range 18).map b)) := State.withOperands_of_holds h _

theorem execRs24169Dec_of_holds {s : State} {b : Nat → Byte} (h : s.Holds 18 b) :
    execRs24169Dec s = .next (rsDecodeBytes rs24169 s ((List.range 18).map b)) := State.withOperands_of_holds h _

theorem execRs362017Dec_of_holds {s : State} {b : Nat → Byte} (h : s.Holds 27 b) :
    execRs362017Dec s = .next (rsDecodeBytes rs362017 s ((List.range 27).map b)) := State.withOperands_of_holds h _

theorem execRs24121Enc_of_holds {s : State} {b : Nat → Byte} (h : s.Holds 9 b) :
    execRs24121Enc s = .next (rsEncodeBytes rs24121 s ((List.range 9).map b)) := State.withOperands_of_holds h _

theorem execRs24169Enc_of_holds {s : State} {b : Nat → Byte} (h : s.Holds 12 b) :
    execRs24169Enc s = .next (rsEncodeBytes rs24169 s ((List.range 12).map b)) := State.withOperands_of_holds h _

theorem execRs362017Enc_of_holds {s : State} {b : Nat → Byte} (h : s.Holds 15 b) :
    execRs362017Enc s = .next (rsEncodeBytes rs362017 s ((List.range 15).map b)) := State.withOperands_of_holds h _

theorem interleaveWith_of_illegal {source : Nat → Nat → Nat → Nat} {s : State} (h : s.ilvLegal = false) :
    interleaveWith source s = .next (s.complete 0x01 0x0000) := by
  simp [interleaveWith, h, State.signalIllegal]

theorem interleaveWith_of_holds {source : Nat → Nat → Nat → Nat} {s : State} {b : Nat → Byte} (h : s.ilvLegal = true)
    (hb : s.Holds s.ilvBytes b) :
    interleaveWith source s = .next ((s.setBytes 0 (bytesOf (permuteBits s.ilvN.toNat
      (source s.ilvN.toNat s.ilvD.toNat) ((List.range s.ilvBytes).map b)) 0 s.ilvBytes)).complete 0x00 0x0000) := by
  rw [interleaveWith, if_pos h, State.withOperands_of_holds hb, statusNone_eq]

theorem dispatchFamily_of_holds {f : Family} {s : State} {b : Nat → Byte} (h : s.Holds 1 b) :
    dispatchFamily f s = .next (s.complete (if Config.discKnown f (discriminator (fieldOf b 0 8)) then 0x04 else 0x00)
      (0x00#8 ++ (discFlags (fieldOf b 0 8) ++ discriminator (fieldOf b 0 8)))) := by
  rw [dispatchFamily, State.withOperands_of_holds h, bufRead_map_range (by omega), ← statusHit_eq]

/-- A first byte read as a field is that byte. -/
theorem fieldOf_first (b : Nat → Byte) : fieldOf b 0 8 = b 0 := by
  refine (readBits_congr fun k hk => ?_).trans (readBits_getMsbD (b 0))
  simp only [bitOf]
  rw [show (0 + k) / 8 = 0 by omega, show (0 + k) % 8 = 0 + k by omega]

end Sys2Proof.Machine
end

