-- ==== Sys2Proof/Laws/Field.lean ====
section
/-! SUPPORT. Remainders over GF(2) are linear, and GF(2^6) is a commutative ring under `^^^` and `gfMul`
(41_reed_solomon.md R141). -/

namespace Sys2Proof.Machine

theorem shiftLeft_xor {w : Nat} (a b : BitVec w) (n : Nat) : (a ^^^ b) <<< n = (a <<< n) ^^^ (b <<< n) := by
  ext i hi
  simp only [BitVec.getElem_shiftLeft, BitVec.getElem_xor]
  cases decide (i < n) <;> simp

/-- Long division is linear in the dividend. -/
theorem polyMod_xor {w : Nat} (deg : Nat) (g : BitVec w) (n : Nat) (p q : BitVec w) :
    polyMod deg g n (p ^^^ q) = polyMod deg g n p ^^^ polyMod deg g n q := by
  induction n generalizing p q with
  | zero => rfl
  | succ n ih =>
    simp only [polyMod, BitVec.getLsbD_xor]
    rw [← ih]
    congr 1
    cases p.getLsbD (deg + n) <;> cases q.getLsbD (deg + n) <;>
      simp only [Bool.xor_false, Bool.xor_true, Bool.not_true, Bool.not_false, if_true, if_false, Bool.false_eq_true]
    · rw [BitVec.xor_assoc]
    · rw [BitVec.xor_assoc, BitVec.xor_assoc, BitVec.xor_comm q]
    · rw [BitVec.xor_assoc p, BitVec.xor_comm (g <<< n), BitVec.xor_assoc q, BitVec.xor_self, BitVec.xor_zero]

/-- The product is linear in its first factor. -/
theorem polyMul_xor_right {w : Nat} (b : BitVec w) (n : Nat) (p q : BitVec w) :
    polyMul b n (p ^^^ q) = polyMul b n p ^^^ polyMul b n q := by
  induction n with
  | zero => simp [polyMul]
  | succ n ih =>
    simp only [polyMul, ih]
    cases b.getLsbD n
    · simp
    · simp only [if_true, shiftLeft_xor]
      ac_rfl

/-- The product is linear in its second factor. -/
theorem polyMul_xor_left {w : Nat} (b c : BitVec w) (n : Nat) (p : BitVec w) :
    polyMul (b ^^^ c) n p = polyMul b n p ^^^ polyMul c n p := by
  induction n with
  | zero => simp [polyMul]
  | succ n ih =>
    simp only [polyMul, ih, BitVec.getLsbD_xor]
    cases b.getLsbD n <;> cases c.getLsbD n <;> simp
    · ac_rfl
    · ac_rfl
    · rw [BitVec.xor_assoc, BitVec.xor_comm (p <<< n), BitVec.xor_assoc, BitVec.xor_self, BitVec.xor_zero]

theorem setWidth_xor {v w : Nat} (a b : BitVec v) : (a ^^^ b).setWidth w = a.setWidth w ^^^ b.setWidth w := by
  ext i hi
  simp

theorem gfMul_xor_left (a b c : GF64) : gfMul (a ^^^ b) c = gfMul a c ^^^ gfMul b c := by
  simp only [gfMul, setWidth_xor, polyMul_xor_right, polyMod_xor]

theorem gfMul_xor_right (a b c : GF64) : gfMul a (b ^^^ c) = gfMul a b ^^^ gfMul a c := by
  simp only [gfMul, setWidth_xor, polyMul_xor_left, polyMod_xor]

/-- What holds of 0, of every x^i and of sums holds of the whole field. -/
theorem gf_induction {P : GF64 → Prop} (zero : P 0) (base : ∀ i, i < 6 → P (oneBit 6 i))
    (add : ∀ a b, P a → P b → P (a ^^^ b)) (a : GF64) : P a := by
  have split : ∀ a : GF64, a = (List.range 6).foldl (fun acc i => acc ^^^ if a.getLsbD i then oneBit 6 i else 0) 0 := by
    decide
  rw [split a]
  have go : ∀ (l : List Nat) (acc : GF64), (∀ i ∈ l, i < 6) → P acc →
      P (l.foldl (fun acc i => acc ^^^ if a.getLsbD i then oneBit 6 i else 0) acc) := by
    intro l
    induction l with
    | nil => intro acc _ h; exact h
    | cons i l ih =>
      intro acc hl h
      refine ih _ (fun j hj => hl j (List.mem_cons_of_mem _ hj)) (add _ _ h ?_)
      split_ifs
      · exact base i (hl i List.mem_cons_self)
      · exact zero
  exact go _ _ (fun i hi => List.mem_range.mp hi) zero

theorem gfMul_zero (a : GF64) : gfMul a 0 = 0 := by
  have := gfMul_xor_right a 0 0
  rwa [BitVec.xor_self, BitVec.xor_self] at this

theorem zero_gfMul (a : GF64) : gfMul 0 a = 0 := by
  have := gfMul_xor_left 0 0 a
  rwa [BitVec.xor_self, BitVec.xor_self] at this

theorem gfMul_comm (a b : GF64) : gfMul a b = gfMul b a := by
  have basis : ∀ i < 6, ∀ j < 6, gfMul (oneBit 6 i) (oneBit 6 j) = gfMul (oneBit 6 j) (oneBit 6 i) := by
    decide +kernel
  induction a using gf_induction with
  | zero => rw [gfMul_zero, zero_gfMul]
  | base i hi =>
    induction b using gf_induction with
    | zero => rw [gfMul_zero, zero_gfMul]
    | base j hj => exact basis i hi j hj
    | add x y hx hy => rw [gfMul_xor_left, gfMul_xor_right, hx, hy]
  | add x y hx hy => rw [gfMul_xor_left, gfMul_xor_right, hx, hy]

theorem gfMul_assoc (a b c : GF64) : gfMul (gfMul a b) c = gfMul a (gfMul b c) := by
  have basis : ∀ i < 6, ∀ j < 6, ∀ k < 6, gfMul (gfMul (oneBit 6 i) (oneBit 6 j)) (oneBit 6 k) =
      gfMul (oneBit 6 i) (gfMul (oneBit 6 j) (oneBit 6 k)) := by
    decide +kernel
  induction a using gf_induction with
  | zero => simp only [zero_gfMul]
  | add x y hx hy => simp only [gfMul_xor_left, hx, hy]
  | base i hi =>
    induction b using gf_induction with
    | zero => simp only [zero_gfMul, gfMul_zero]
    | add x y hx hy => simp only [gfMul_xor_left, gfMul_xor_right, hx, hy]
    | base j hj =>
      induction c using gf_induction with
      | zero => simp only [gfMul_zero]
      | add x y hx hy => simp only [gfMul_xor_right, hx, hy]
      | base k hk => exact basis i hi j hj k hk

theorem gfMul_one (a : GF64) : gfMul a 1 = a := by
  induction a using gf_induction with
  | zero => exact zero_gfMul 1
  | base i hi => revert i; decide +kernel
  | add x y hx hy => rw [gfMul_xor_left, hx, hy]

theorem one_gfMul (a : GF64) : gfMul 1 a = a := by rw [gfMul_comm, gfMul_one]

end Sys2Proof.Machine
end

