-- ==== Sys2Proof/Laws/Step.lean ====
section
/-! SUPPORT. What one step can do (30_encoding.md R85, 10_state.md R34). -/

namespace Sys2Proof.Machine

theorem State.runLine_of_running {s : State} (h : s.faulted = none) (a : Action) :
    s.runLine a = s.nextLine.act a := by
  simp only [State.runLine, h]

/-- Reset takes effect whether or not the run has faulted (70_reset_and_hazards.md R231). -/
theorem State.runLine_reset (s : State) : s.runLine .reset = .next s.nextLine.resetBlock := by
  simp only [State.runLine]
  split <;> simp_all [State.act]

/-- A step of a run that has not faulted takes the host's line, if there is one left. -/
theorem step_of_line {s : State} {a : Action} (h : s.faulted = none) (ha : s.program[s.line]? = some a) :
    step s = s.nextLine.act a := by
  simp only [step, ha, State.runLine_of_running h]

theorem step_of_reset {s : State} (ha : s.program[s.line]? = some .reset) :
    step s = .next s.nextLine.resetBlock := by
  simp only [step, ha, State.runLine_reset]

theorem step_of_end {s : State} (h : s.faulted = none) (ha : s.program[s.line]? = none) : step s = .next s := by
  simp only [step, ha, State.idle, h]

/-- Everything a step that goes on can have done: the block reset, a line of a run that has not faulted, or nothing at
the program's end. -/
theorem step_cases {s t : State} (h : step s = .next t) :
    (s.program[s.line]? = some .reset ∧ t = s.nextLine.resetBlock) ∨
    (∃ a, s.program[s.line]? = some a ∧ s.faulted = none ∧ s.nextLine.act a = .next t) ∨
    (s.program[s.line]? = none ∧ s.faulted = none ∧ t = s) := by
  cases ha : s.program[s.line]? with
  | none =>
    simp only [step, ha, State.idle] at h
    split at h
    · cases h
    next hf => cases h; exact .inr (.inr ⟨rfl, hf, rfl⟩)
  | some a =>
    by_cases hr : a = .reset
    · subst hr
      rw [step_of_reset ha] at h
      cases h
      exact .inl ⟨rfl, rfl⟩
    · cases hf : s.faulted with
      | none => exact .inr (.inl ⟨a, rfl, rfl, by rwa [step_of_line hf ha] at h⟩)
      | some r =>
        simp only [step, ha, State.runLine, hf] at h
        cases a <;> simp_all

/-- Everything a host write that goes on can have done (20_memory.md R50, R51, R56). -/
theorem State.writeWindow_cases {s t : State} {off : Offset} {v : Byte} (h : s.writeWindow off v = .next t) :
    (∃ i, place off = .buf i ∧ t = s.setByte i v) ∨ (place off = .cmd ∧ s.runCommand v = .next t) ∨
    (place off = .ilvN ∧ t = { s with ilvN := v }) ∨ (place off = .ilvD ∧ t = { s with ilvD := v }) ∨ t = s := by
  unfold State.writeWindow at h
  split at h <;> simp_all

/-- Everything a write to CMD that goes on can have done (30_encoding.md R75). -/
theorem State.runCommand_cases {s t : State} {c : Byte} (h : s.runCommand c = .next t) :
    (∃ i, decode c = .ok i ∧ exec i { s with cmd := c } = .next t) ∨
    ((∃ e, decode c = .error e) ∧ t = { s with cmd := c, status := 0x01, result := 0x0000 }) := by
  unfold State.runCommand at h
  split at h
  next i hi => exact .inl ⟨i, hi, h⟩
  next e he =>
    cases h
    exact .inr ⟨⟨e, he⟩, by simp [State.signalIllegal, State.complete]⟩

/-- The step after `withFetchWord` writes the word's byte to CMD. -/
theorem step_withFetchWord (s : State) (nbits w : Nat) :
    step (s.withFetchWord nbits w) = (s.withFetchWord nbits w).nextLine.runCommand (BitVec.ofNat 8 (w % 2 ^ nbits)) := by
  rw [step_of_line rfl (a := .wr 0x1C (BitVec.ofNat 8 (w % 2 ^ nbits))) rfl]
  rfl

end Sys2Proof.Machine
end

