-- ==== Sys2Proof/Laws/Instances.lean ====
section
/-! SUPPORT. What one recorded step, and one event among several instances, can do (10_state.md R34, 20_memory.md R65). -/

namespace Sys2Proof.Machine

theorem stepRecorded_of_next {s t : State} (h : step s = .next t) : stepRecorded s = t := by
  simp only [stepRecorded, h]

theorem stepRecorded_of_fault {s : State} {r : Fault} (h : step s = .fault r) : stepRecorded s = s.recordFault r := by
  simp only [stepRecorded, h]

/-- Everything a recorded step can do: go on, record a fault and change nothing else, or nothing. -/
theorem stepRecorded_cases (s : State) :
    step s = .next (stepRecorded s) ∨ (∃ r, step s = .fault r ∧ stepRecorded s = s.recordFault r) ∨
    ((∃ r, step s = .refused r) ∧ stepRecorded s = s) := by
  unfold stepRecorded
  cases h : step s with
  | next t => exact .inl rfl
  | fault r => exact .inr (.inl ⟨r, rfl, rfl⟩)
  | refused r => exact .inr (.inr ⟨⟨r, rfl⟩, rfl⟩)

@[simp] theorem State.onEvent_step (s : State) : s.onEvent .step = stepRecorded s := rfl

@[simp] theorem State.onEvent_reset (s : State) : s.onEvent .reset = s.resetBlock := rfl

@[simp] theorem State.onEvent_load (s : State) (p : List Action) : s.onEvent (.load p) = s.loadProgram p := rfl

@[simp] theorem stepInstance_length (system : List State) (e : Nat × InstanceEvent) :
    (stepInstance system e).length = system.length := by
  simp [stepInstance]

/-- What an event leaves at each index: the one it names takes it, any other stays. -/
theorem stepInstance_getElem? (system : List State) (e : Nat × InstanceEvent) (k : Nat) :
    (stepInstance system e)[k]? = if e.1 = k then system[k]?.map fun s => s.onEvent e.2 else system[k]? := by
  rw [stepInstance, List.getElem?_modify]
  split <;> simp_all

/-- An event at an instance that is there replaces that instance's state. -/
theorem stepInstance_eq_set {system : List State} {j : Nat} {s : State} (h : system[j]? = some s) (e : InstanceEvent) :
    stepInstance system (j, e) = system.set j (s.onEvent e) := by
  refine List.ext_getElem? fun k => ?_
  rw [stepInstance_getElem?, List.getElem?_set]
  obtain ⟨hj, -⟩ := List.getElem?_eq_some_iff.mp h
  split <;> simp_all

@[simp] theorem runInstances_nil (system : List State) : runInstances system [] = system := rfl

@[simp] theorem runInstances_cons (system : List State) (e : Nat × InstanceEvent) (es : List (Nat × InstanceEvent)) :
    runInstances system (e :: es) = runInstances (stepInstance system e) es := rfl

end Sys2Proof.Machine
end

