-- ==== Sys2Proof/Laws/PerInstr.lean ====
section
/-! SUPPORT. Facts of a command as syntax, one lemma per command: its SUB is one its OP allows (30_encoding.md R72) and
its mnemonic names it back (R77). -/

namespace Sys2Proof.Laws

/-- A command's encoding keeps R72 and its mnemonic is its own (30_encoding.md R72, R77). -/
def Named.Statement (i : Instr) : Prop := i.wf = true ∧ ofMnemonic (mnemonic i) = some i

theorem Named.nop : Named.Statement .nop := by unfold Named.Statement; decide
theorem Named.g2087Dec : Named.Statement .g2087Dec := by unfold Named.Statement; decide
theorem Named.g2087Enc : Named.Statement .g2087Enc := by unfold Named.Statement; decide
theorem Named.g24128Dec : Named.Statement .g24128Dec := by unfold Named.Statement; decide
theorem Named.g24128Enc : Named.Statement .g24128Enc := by unfold Named.Statement; decide
theorem Named.rs24121Dec : Named.Statement .rs24121Dec := by unfold Named.Statement; decide
theorem Named.rs24169Dec : Named.Statement .rs24169Dec := by unfold Named.Statement; decide
theorem Named.rs362017Dec : Named.Statement .rs362017Dec := by unfold Named.Statement; decide
theorem Named.rs24121Enc : Named.Statement .rs24121Enc := by unfold Named.Statement; decide
theorem Named.rs24169Enc : Named.Statement .rs24169Enc := by unfold Named.Statement; decide
theorem Named.rs362017Enc : Named.Statement .rs362017Enc := by unfold Named.Statement; decide
theorem Named.deinterleave : Named.Statement .deinterleave := by unfold Named.Statement; decide
theorem Named.interleave : Named.Statement .interleave := by unfold Named.Statement; decide
theorem Named.dispatchTsbk : Named.Statement .dispatchTsbk := by unfold Named.Statement; decide
theorem Named.dispatchTdulc : Named.Statement .dispatchTdulc := by unfold Named.Statement; decide
theorem Named.dispatchRcch : Named.Statement .dispatchRcch := by unfold Named.Statement; decide

end Sys2Proof.Laws
end

