-- ==== Sys2Proof/Tests/Slice0.lean ====
section
/-! SUPPORT. Tests against the words, examples and vectors of the spec, and for every statement with hypotheses a state
that meets them. -/

namespace Sys2Proof.Tests

open Sys2Proof.Machine

/-- Bytes from numbers. -/
def bytes (l : List Nat) : List Byte := l.map (BitVec.ofNat 8)

/-- The machine after reset with BUF[0], BUF[1], … holding the given bytes. -/
def held (l : List Nat) : State := State.reset.setBytes 0 (bytes l)

/-- The machine after reset with BUF, ILV_N and ILV_D given. -/
def ilv (n d : Byte) (l : List Nat) : State := { held l with ilvN := n, ilvD := d }

/-- The machine with a host program, at its first line. -/
def running (p : List Action) (s : State) : State := { s with program := p }

/-- The command's next state has this STATUS and RESULT, and these bytes from BUF[0] on. -/
def gives (o : Outcome) (status result : Nat) (l : List Nat) : Bool :=
  match o with
  | .next t => t.status.toNat == status && t.result.toNat == result && (t.buf.map (·.2.toNat)) == l
  | _ => false

/-- The outcome is this next state. -/
def isNext (o : Outcome) (t : State) : Bool :=
  match o with
  | .next u => u == t
  | _ => false

/-- The outcome is some next state. -/
def goesOn (o : Outcome) : Bool :=
  match o with
  | .next _ => true
  | _ => false

/-- The outcome is this fault. -/
def isFault (o : Outcome) (r : Fault) : Bool :=
  match o with
  | .fault q => q == r
  | _ => false

theorem eq_of_isNext {o : Outcome} {t : State} (h : isNext o t = true) : o = .next t := by
  cases o with
  | next u => exact congrArg _ (eq_of_beq h)
  | fault r => cases h
  | refused r => cases h

theorem exists_of_goesOn {o : Outcome} (h : goesOn o = true) : ∃ t, o = .next t := by
  cases o with
  | next u => exact ⟨u, rfl⟩
  | fault r => cases h
  | refused r => cases h

/-! ## Well-formedness -/

theorem test_sub_refused : subAllowed 0x0 1 = false ∧ subAllowed 0x5 3 = false ∧ subAllowed 0xA 0 = false := by decide

theorem test_line_refused : OffsetName.wf (.buf 27) = false ∧ SourceLine.wf (.wr (.buf 27) 0) = false ∧
    SourceLine.wf (.rd (.buf 30)) = false ∧ SourceLine.wf (.wrbuf 26 [0, 0]) = false ∧
    SourceLine.wf (.wrbuf 0 []) = false ∧ SourceLine.wf (.rdbuf 20 8) = false ∧
    SourceLine.wf (.rdbuf 0 0) = false := by decide

/-! ## Decoding (30_encoding.md R70, R73: OP in bits 7:4, SUB in bits 3:0) -/

theorem test_decode_words :
    decode 0b00000000 = .ok .nop ∧ decode 0b00010000 = .ok .g2087Dec ∧ decode 0b00100000 = .ok .g2087Enc ∧
    decode 0b00110000 = .ok .g24128Dec ∧ decode 0b01000000 = .ok .g24128Enc ∧
    decode 0b01010000 = .ok .rs24121Dec ∧ decode 0b01010001 = .ok .rs24169Dec ∧
    decode 0b01010010 = .ok .rs362017Dec ∧ decode 0b01100000 = .ok .rs24121Enc ∧
    decode 0b01100001 = .ok .rs24169Enc ∧ decode 0b01100010 = .ok .rs362017Enc ∧
    decode 0b01110000 = .ok .deinterleave ∧ decode 0b10000000 = .ok .interleave ∧
    decode 0b10010000 = .ok .dispatchTsbk ∧ decode 0b10010001 = .ok .dispatchTdulc ∧
    decode 0b10010010 = .ok .dispatchRcch := by decide

/-- The illegal bytes of 95_test_vectors.md §2.8. -/
theorem test_decode_illegal :
    decode 0x01 = .error (.illegalSub 0 1) ∧ decode 0x53 = .error (.illegalSub 5 3) ∧
    decode 0x71 = .error (.illegalSub 7 1) ∧ decode 0x9F = .error (.illegalSub 9 15) ∧
    decode 0xA0 = .error (.illegalOp 10) ∧ decode 0xFF = .error (.illegalOp 15) := by decide

theorem test_decodeTableWord : decodeTableWord 8 0x52 = some .rs362017Dec ∧ decodeTableWord 8 0xA0 = none := by decide

/-! ## The commands, on the spec's examples -/

/-- 44_control.md R200. -/
theorem test_nop : gives (exec .nop { held [0x5A] with status := 0x02 }) 0 0 [0x5A] = true := by decide

/-- 40_golay.md R113. -/
theorem test_g2087Dec : gives (exec .g2087Dec (held [0xDA, 0xA0, 0x60])) 0 0x5A [0xDA, 0xA0, 0x60] = true := by
  decide +kernel

/-- 40_golay.md R124: the leader lies outside the 19 bits, so the word passes through. -/
theorem test_g2087Dec_uncorrected : gives (exec .g2087Dec (held [0xAA, 0xA0, 0x60])) 0 0xAA [0xAA, 0xA0, 0x60] = true := by
  decide +kernel

/-- 40_golay.md R116; BUF[1] and BUF[2] were unwritten. -/
theorem test_g2087Enc : gives (exec .g2087Enc (held [0x5A])) 0 0 [0x5A, 0xA0, 0x60] = true := by decide +kernel

/-- 40_golay.md R119. -/
theorem test_g24128Dec : gives (exec .g24128Dec (held [0x2B, 0xC6, 0x3D])) 0 0xABC [0x2B, 0xC6, 0x3D] = true := by
  decide +kernel

/-- 40_golay.md R124: four errors, a miscorrection. -/
theorem test_g24128Dec_miscorrects : gives (exec .g24128Dec (held [0x5B, 0xC2, 0x3C])) 0 0x5B8 [0x5B, 0xC2, 0x3C] = true := by
  decide +kernel

/-- 40_golay.md R122; the low nibble of BUF[1] is overwritten. -/
theorem test_g24128Enc : gives (exec .g24128Enc (held [0xAB, 0xC7])) 0 0 [0xAB, 0xC2, 0x3C] = true := by decide +kernel

/-- 40_golay.md R103, 95_test_vectors.md §2.1. -/
theorem test_getSyndrome : getSyndrome 0x100000 0x400000 = 0x7B4 ∧ getSyndrome 0x07FFFF 0x040000 = 0x149 ∧
    getSyndrome 0x7FFFFF 0x400000 = 0 := by decide +kernel

/-- 41_reed_solomon.md R149. -/
theorem test_rs24121Enc :
    gives (exec .rs24121Enc (held [0x00, 0x00, 0x43, 0x00, 0x12, 0x34, 0xAB, 0xCD, 0xEF])) 0 0
      [0x00, 0x00, 0x43, 0x00, 0x12, 0x34, 0xAB, 0xCD, 0xEF, 0xDC, 0xB9, 0x8D, 0x16, 0x2B, 0x47, 0x41, 0xDD,
        0x93] = true := by decide +kernel

/-- 41_reed_solomon.md R150. -/
theorem test_rs24169Enc :
    gives (exec .rs24169Enc (held [0x01, 0x23, 0x45, 0x67, 0x89, 0xAB, 0xCD, 0xEF, 0xFE, 0xDC, 0xBA, 0x98])) 0 0
      [0x01, 0x23, 0x45, 0x67, 0x89, 0xAB, 0xCD, 0xEF, 0xFE, 0xDC, 0xBA, 0x98, 0x2C, 0xFE, 0x6A, 0xFC, 0xCA,
        0xFD] = true := by decide +kernel

/-- 41_reed_solomon.md R151. -/
theorem test_rs362017Enc :
    gives (exec .rs362017Enc (held [0x11, 0x22, 0x33, 0x44, 0x55, 0x66, 0x77, 0x88, 0x99, 0xAA, 0xBB, 0xCC, 0xDD, 0xEE,
      0xFF])) 0 0
      [0x11, 0x22, 0x33, 0x44, 0x55, 0x66, 0x77, 0x88, 0x99, 0xAA, 0xBB, 0xCC, 0xDD, 0xEE, 0xFF, 0x1B, 0x19, 0xC7,
        0x0A, 0x39, 0x5C, 0x26, 0x0E, 0x5C, 0x38, 0xE7, 0x6E] = true := by decide +kernel

/-- 41_reed_solomon.md R165: six symbol errors. -/
theorem test_rs24121Dec :
    gives (exec .rs24121Dec (held [0xFC, 0x00, 0x42, 0x00, 0x12, 0x14, 0xAB, 0xCD, 0xFA, 0xDC, 0xB9, 0xA7, 0x16, 0x2B,
      0x47, 0x41, 0xDD, 0x94])) 0 6
      [0x00, 0x00, 0x43, 0x00, 0x12, 0x34, 0xAB, 0xCD, 0xEF, 0xDC, 0xB9, 0xA7, 0x16, 0x2B, 0x47, 0x41, 0xDD,
        0x94] = true := by decide +kernel

/-- 41_reed_solomon.md R166: four symbol errors. -/
theorem test_rs24169Dec :
    gives (exec .rs24169Dec (held [0x02, 0xD3, 0x45, 0x67, 0xA9, 0xAB, 0xCD, 0xEF, 0xFE, 0xDC, 0xBA, 0x98, 0x6C, 0xFE,
      0x6A, 0xFC, 0xCA, 0xC2])) 0 4
      [0x01, 0x23, 0x45, 0x67, 0x89, 0xAB, 0xCD, 0xEF, 0xFE, 0xDC, 0xBA, 0x98, 0x6C, 0xFE, 0x6A, 0xFC, 0xCA,
        0xC2] = true := by decide +kernel

/-- 95_test_vectors.md §2.5: five symbol errors, FAIL, BUF unchanged. -/
theorem test_rs24169Dec_fails :
    gives (exec .rs24169Dec (held [0x02, 0xD3, 0x45, 0x67, 0xA9, 0xAB, 0xCD, 0xEF, 0xBE, 0xDC, 0xBA, 0x98, 0x6C, 0xFE,
      0x6A, 0xFC, 0xCA, 0xC2])) 2 0
      [0x02, 0xD3, 0x45, 0x67, 0xA9, 0xAB, 0xCD, 0xEF, 0xBE, 0xDC, 0xBA, 0x98, 0x6C, 0xFE, 0x6A, 0xFC, 0xCA,
        0xC2] = true := by decide +kernel

/-- 41_reed_solomon.md R167: eight symbol errors. -/
theorem test_rs362017Dec :
    gives (exec .rs362017Dec (held [0x15, 0x22, 0xB3, 0x54, 0x57, 0x66, 0x37, 0x88, 0x99, 0xAA, 0xBB, 0xCC, 0xDD, 0xEE,
      0xFF, 0x9B, 0x19, 0xC7, 0x0A, 0x39, 0x5C, 0x26, 0x01, 0x9C, 0x38, 0xE7, 0x44])) 0 8
      [0x11, 0x22, 0x33, 0x44, 0x55, 0x66, 0x77, 0x88, 0x99, 0xAA, 0xBB, 0xCC, 0xDD, 0xEE, 0xFF, 0x9B, 0x19, 0xC7,
        0x0A, 0x39, 0x5C, 0x26, 0x01, 0x9C, 0x38, 0xE7, 0x44] = true := by decide +kernel

/-- 42_interleave.md R183; 95_test_vectors.md §2.6, N = 12, D = 3. -/
theorem test_deinterleave : gives (exec .deinterleave (ilv 8 2 [0xF0])) 0 0 [0xCC] = true ∧
    gives (exec .deinterleave (ilv 12 3 [0xAB, 0xCF])) 0 0 [0xB6, 0xAF] = true := by decide +kernel

/-- 42_interleave.md R182: an illegal pair is signalled without reading BUF. -/
theorem test_deinterleave_illegal : gives (exec .deinterleave (ilv 24 5 [])) 1 0 [] = true ∧
    gives (exec .deinterleave (ilv 217 1 [])) 1 0 [] = true := by decide +kernel

/-- 42_interleave.md R184. -/
theorem test_interleave : gives (exec .interleave (ilv 8 2 [0xF0])) 0 0 [0xAA] = true ∧
    gives (exec .interleave (ilv 12 3 [0xAB, 0xCF])) 0 0 [0xE7, 0x2F] = true := by decide +kernel

/-- 42_interleave.md R182: D = 0, and the reset values. -/
theorem test_interleave_illegal : gives (exec .interleave (ilv 8 0 [])) 1 0 [] = true ∧
    gives (exec .interleave (ilv 0 0 [])) 1 0 [] = true := by decide +kernel

/-- RESULT of a DISPATCH (43_dispatch.md R192, 95_test_vectors.md §2.7); HIT is the spec's open table. -/
def resultOf (o : Outcome) : Option Nat :=
  match o with
  | .next t => some t.result.toNat
  | _ => none

theorem test_dispatchTsbk : resultOf (exec .dispatchTsbk (held [0x9F])) = some 0x9F := by decide +kernel

theorem test_dispatchTdulc : resultOf (exec .dispatchTdulc (held [0xC0])) = some 0xC0 := by decide +kernel

theorem test_dispatchRcch : resultOf (exec .dispatchRcch (held [0xFF])) = some 0xFF := by decide +kernel

/-- 95_test_vectors.md §3.5: BUF[1] was never written. -/
theorem test_unwritten : isFault (exec .g24128Dec (held [0x12])) (.unwrittenRead 1) = true := by decide +kernel

/-! ## The window and the step -/

/-- 95_test_vectors.md §2.8, accesses after reset. -/
theorem test_window_reset : State.reset.readWindow 0x1C = .ok 0x00 ∧ State.reset.readWindow 0x1B = .ok 0x00 ∧
    State.reset.readWindow 0x3F = .ok 0x00 ∧ State.reset.readWindow 0x00 = .error (.unwrittenRead 0) := by
  decide +kernel

/-- 95_test_vectors.md §2.8: an illegal byte stands in CMD, and STATUS is ILLEGAL. -/
theorem test_step_illegal : isNext (step (running [.wr 0x1C 0xA5] State.reset))
    { State.reset with program := [.wr 0x1C 0xA5], line := 1, cmd := 0xA5, status := 0x01 } = true := by decide +kernel

/-- The step after `withFetchWord` runs the command: from reset, NOP completes with CMD written. -/
theorem test_withFetchWord : isNext (step (State.reset.withFetchWord 8 0x00))
    { State.reset with program := [.wr 0x1C 0x00], line := 1 } = true := by decide +kernel

/-- 20_memory.md R65: one instance faults, the other goes on; a reset of the first, with a program for it, lets it go on
too (70_reset_and_hazards.md R231). -/
theorem test_instances :
    (runInstances [running [.rd 0x00] State.reset, running [.wr 0x20 0x08] State.reset]
      [(0, .step), (1, .step), (0, .step)]).map (fun s => (s.faulted, s.line, s.ilvN)) =
        [(some (.unwrittenRead 0), 0, 0x00), (none, 1, 0x08)] ∧
    (runInstances [running [.rd 0x00] State.reset, running [.wr 0x20 0x08] State.reset]
      [(0, .step), (1, .step), (0, .reset), (0, .load [.wr 0x21 0x02]), (0, .step)]).map
        (fun s => (s.faulted, s.line, s.ilvN, s.ilvD)) =
          [(none, 1, 0x00, 0x02), (none, 1, 0x08, 0x00)] := by decide +kernel

/-- A line of program 1 of 95_test_vectors.md §3.1, read from its text. -/
theorem test_parse : parseLine ['w', 'r', 'b', 'u', 'f', ' ', '0', ',', ' ', 'A', 'B', ' ', 'C', '7', ' ', ';', 'x'] =
    some (.wrbuf 0 [0xAB, 0xC7]) ∧ parseLine ['c', 'm', 'd', ' ', 'N', 'o', 'p'] = some (.cmd .nop) ∧
    parseLine ['w', 'r', ' ', 'B', 'U', 'F', '+', '1', '1', ',', ' ', '0', 'x', 'A', '7'] =
      some (.wr (.buf 11) 0xA7) := by decide +kernel

end Sys2Proof.Tests
end

