-- ==== Sys2Proof/Tests/Witnesses.lean ====
section
/-! SUPPORT. For each statement with hypotheses, a concrete state and operands that meet all of them; where a statement
has several clauses, one for each, at the ends of its ranges. -/

namespace Sys2Proof.Tests

open Sys2Proof.Machine

/-- The function of an index that a list of bytes gives. -/
def at0 (l : List Nat) (j : Nat) : Byte := (bytes l).getD j 0

/-- Eighteen bytes of zeros but for the first ones. -/
def padded (l : List Nat) : List Nat := l ++ List.replicate (18 - l.length) 0

/-- The uncorrectable word of 95_test_vectors.md §2.5. -/
def uncorrectable : List Nat :=
  [0x02, 0xD3, 0x45, 0x67, 0xA9, 0xAB, 0xCD, 0xEF, 0xBE, 0xDC, 0xBA, 0x98, 0x6C, 0xFE, 0x6A, 0xFC, 0xCA, 0xC2]

theorem witness_DecodeIsTheCommandTable : decode 0x92 = .ok .dispatchRcch ∧ (0x92 : Byte) = encode .dispatchRcch := by
  decide

theorem witness_StepRunsTheWrittenCommand :
    (running [.wr 0x1C 0x00] State.reset).faulted = none ∧
    (running [.wr 0x1C 0x00] State.reset).program[(running [.wr 0x1C 0x00] State.reset).line]? = some (.wr 0x1C 0x00) ∧
    decode 0x00 = .ok .nop := by decide

theorem witness_StepPerformsTheHostLine :
    State.reset.faulted = none ∧
    (running [.wr 0x00 0x5A] State.reset).program[(running [.wr 0x00 0x5A] State.reset).line]? = some (.wr 0x00 0x5A) ∧
    (running [.wr 0x3F 0x5A] State.reset).program[(running [.wr 0x3F 0x5A] State.reset).line]? = some (.wr 0x3F 0x5A) ∧
    (running [.wr 0x1C 0x00] State.reset).program[(running [.wr 0x1C 0x00] State.reset).line]? = some (.wr 0x1C 0x00) ∧
    (running [.wr 0x1C 0xFF] State.reset).program[(running [.wr 0x1C 0xFF] State.reset).line]? = some (.wr 0x1C 0xFF) ∧
    (∀ i, (0xFF : Byte) ≠ encode i) ∧
    (running [.comment ""] State.reset).program[(running [.comment ""] State.reset).line]? = some (.comment "") := by
  refine ⟨by decide, by decide, by decide, by decide, by decide, ?_, by decide⟩
  intro i
  cases i <;> decide

theorem witness_IllegalCommandsOnlySignal_byte :
    (∀ i, (0x01 : Byte) ≠ encode i) ∧ (∀ i, (0x93 : Byte) ≠ encode i) ∧ (∀ i, (0xA0 : Byte) ≠ encode i) ∧
    (∀ i, (0xFF : Byte) ≠ encode i) := by
  refine ⟨?_, ?_, ?_, ?_⟩ <;> intro i <;> cases i <;> decide

theorem witness_IllegalCommandsOnlySignal_pair :
    ∀ p ∈ [(0, 0), (217, 1), (255, 5), (8, 0), (24, 5), (8, 9)], ¬ (1 ≤ (ilv (BitVec.ofNat 8 p.1) (BitVec.ofNat 8 p.2) []).ilvN.toNat ∧
      (ilv (BitVec.ofNat 8 p.1) (BitVec.ofNat 8 p.2) []).ilvN.toNat ≤ 216 ∧
      1 ≤ (ilv (BitVec.ofNat 8 p.1) (BitVec.ofNat 8 p.2) []).ilvD.toNat ∧
      (ilv (BitVec.ofNat 8 p.1) (BitVec.ofNat 8 p.2) []).ilvN.toNat %
        (ilv (BitVec.ofNat 8 p.1) (BitVec.ofNat 8 p.2) []).ilvD.toNat = 0) := by
  decide +kernel

theorem witness_ReservedAndReadOnlyOffsets :
    (0x1B : Offset).toNat = 0x1B ∧ (0x22 : Offset).toNat = 0x22 ∧ 0x22 ≤ (0x3F : Offset).toNat ∧
    (0x1D : Offset).toNat = 0x1D ∧ (0x1E : Offset).toNat = 0x1E ∧ (0x1F : Offset).toNat = 0x1F := by decide

theorem witness_HostReadsTheWindow :
    (held (List.replicate 27 0xAB)).byte? (0x00 : Offset).toNat = some 0xAB ∧ (0x1A : Offset).toNat < 27 ∧
    (held (List.replicate 27 0xAB)).byte? (0x1A : Offset).toNat = some 0xAB ∧
    State.reset.byte? (0x00 : Offset).toNat = none ∧ State.reset.byte? (0x1A : Offset).toNat = none ∧
    State.reset.readWindow 0x1E = .ok 0x00 ∧ State.reset.readWindow 0x1F = .ok 0x00 := by decide +kernel

theorem witness_HostWritesOnlyStore : (0x00 : Offset).toNat < 27 ∧ (0x1A : Offset).toNat < 27 := by decide

theorem witness_ReadStepsLeaveTheBlock :
    (running [.rd 0x1D] State.reset).faulted = none ∧
    (running [.rd 0x1D] State.reset).program[(running [.rd 0x1D] State.reset).line]? = some (.rd 0x1D) ∧
    (running [.rd 0x1D] State.reset).readWindow 0x1D = .ok 0x00 ∧
    (running [.rd 0x1A] State.reset).program[(running [.rd 0x1A] State.reset).line]? = some (.rd 0x1A) ∧
    (running [.rd 0x1A] State.reset).readWindow 0x1A = .error (.unwrittenRead 26) := by decide +kernel

theorem witness_ResetStepResets :
    (running [.reset] (held [0x5A])).program[(running [.reset] (held [0x5A])).line]? = some .reset := by decide

theorem witness_StepKeepsInvariant :
    (running [.wr 0x1C 0x00] (held [0x5A])).Inv ∧ ∃ t, step (running [.wr 0x1C 0x00] (held [0x5A])) = .next t := by
  refine ⟨⟨by decide, .inl rfl, by decide, by decide, by decide, by decide, ?_, by decide⟩, exists_of_goesOn (by decide)⟩
  intro i h
  cases h

/-- The second clause at a step that faults: the record it leaves names a byte of BUF. -/
theorem witness_StepKeepsInvariant_fault :
    (running [.rd 0x1A] State.reset).Inv ∧ step (running [.rd 0x1A] State.reset) = .fault (.unwrittenRead 26) ∧
    (stepRecorded (running [.rd 0x1A] State.reset)).faulted = some (.unwrittenRead 26) := by
  refine ⟨⟨by decide, .inl rfl, by decide, by decide, by decide, by decide, ?_, by decide⟩, by rfl, by rfl⟩
  intro i h
  cases h

theorem witness_ProgramRunsInOrder :
    (running [.wr 0x1C 0x00] State.reset).line < (running [.wr 0x1C 0x00] State.reset).program.length ∧
    (∃ t, step (running [.wr 0x1C 0x00] State.reset) = .next t) ∧
    State.reset.faulted = none ∧ State.reset.program.length ≤ State.reset.line :=
  ⟨by decide, exists_of_goesOn (by decide), rfl, by decide⟩

theorem witness_FaultedRunStays :
    ({ running [.rd 0x00] State.reset with faulted := some (.unwrittenRead 0) } : State).faulted =
      some (.unwrittenRead 0) ∧
    ({ running [.rd 0x00] State.reset with faulted := some (.unwrittenRead 0) } : State).program[0]? ≠ some .reset := by
  decide

theorem witness_PseudoInstructionsExpand :
    25 + ([0x12, 0x34] : List Byte).length ≤ 27 ∧ ([0x12, 0x34] : List Byte)[1]? = some 0x34 ∧ 0 + 27 ≤ 27 ∧ 26 < 27 := by
  decide

theorem witness_InstancesDoNotInterfere :
    (0 ≠ 1) ∧ [running [.wr 0x1C 0x00] State.reset, held [0x5A]][0]? = some (running [.wr 0x1C 0x00] State.reset) ∧
    [running [.wr 0x1C 0x00] State.reset, held [0x5A]][1]? = some (held [0x5A]) ∧
    (∃ t, step (running [.wr 0x1C 0x00] State.reset) = .next t) ∧ ∃ t, step (held [0x5A]) = .next t :=
  ⟨by decide, rfl, rfl, exists_of_goesOn (by decide), exists_of_goesOn (by decide)⟩

theorem witness_FaultStopsOneInstance :
    [running [.rd 0x1A] State.reset, held [0x5A]][0]? = some (running [.rd 0x1A] State.reset) ∧
    (running [.rd 0x1A] State.reset).faulted = none ∧
    step (running [.rd 0x1A] State.reset) = .fault (.unwrittenRead 26) ∧
    [running [.rd 0x1A] State.reset, held [0x5A]][1]? = some (held [0x5A]) ∧ (∃ t, step (held [0x5A]) = .next t) ∧
    ∃ u, { State.reset with program := [.rd 0x1D], line := 1 }.act (.rd 0x1D) = .next u :=
  ⟨rfl, rfl, rfl, rfl, exists_of_goesOn (by decide), exists_of_goesOn (by decide)⟩

theorem witness_EventsKeepEveryInvariant : ∀ s, s ∈ [State.reset, running [.rd 0x1A] State.reset] → s.Inv := by
  intro s hs
  have h : ∀ p, (running p State.reset).Inv := fun p =>
    ⟨by simp [running, State.reset, Memory.wf], .inl rfl, fun _ => rfl, fun _ => rfl, by simp [running, State.reset],
      by simp [running, State.reset], fun _ h => by simp [running, State.reset] at h, Nat.zero_le _⟩
  simp only [List.mem_cons, List.not_mem_nil, or_false] at hs
  rcases hs with rfl | rfl
  · exact h []
  · exact h _

theorem witness_UnwrittenOperandFaults :
    0 < operandBytes .g2087Enc State.reset ∧ State.reset.byte? 0 = none ∧
    26 < operandBytes .rs362017Dec (held (List.replicate 26 0)) ∧ (held (List.replicate 26 0)).byte? 26 = none ∧
    (∀ k, k < 26 → (held (List.replicate 26 0)).byte? k ≠ none) ∧
    (running [.wr 0x1C (encode .g2087Enc)] State.reset).program[0]? = some (.wr 0x1C (encode .g2087Enc)) ∧
    (∀ j, j < operandBytes .g24128Dec (held [1, 2, 3]) → (held [1, 2, 3]).byte? j ≠ none) := by decide +kernel

theorem witness_CommandWritesOnlyItsColumn :
    (∃ t, (held [0x5A]).runCommand (encode .g2087Enc) = .next t) ∧
    (∃ t, (ilv 12 3 [0xAB, 0xCF]).runCommand (encode .interleave) = .next t) ∧
    7 < (writtenBits .g2087Enc (held [0x5A])).1 ∧ (writtenBits .interleave (ilv 12 3 [0xAB, 0xCF])).2 ≤ 12 :=
  ⟨exists_of_goesOn (by decide +kernel), exists_of_goesOn (by decide +kernel), by decide, by decide +kernel⟩

theorem witness_CommandSetsOneFlagAtMost :
    (∃ t, State.reset.runCommand 0xA0 = .next t ∧ t.illegalFlag = true) ∧
    (∃ t, (held [0x02, 0xD3, 0x45, 0x67, 0xA9, 0xAB, 0xCD, 0xEF, 0xBE, 0xDC, 0xBA, 0x98, 0x6C, 0xFE, 0x6A, 0xFC, 0xCA,
      0xC2]).runCommand 0x51 = .next t ∧ t.failFlag = true) ∧
    ((0x00 : Byte) = encode .nop ∧ ∃ t, State.reset.runCommand 0x00 = .next t) := by
  have find : ∀ (o : Outcome) (p : State → Bool), (match o with | .next t => p t | _ => false) = true →
      ∃ t, o = .next t ∧ p t = true := by
    intro o p h
    cases o with
    | next u => exact ⟨u, rfl, h⟩
    | fault r => cases h
    | refused r => cases h
  exact ⟨find _ _ (by decide +kernel), find _ _ (by decide +kernel), rfl, exists_of_goesOn (by decide)⟩

theorem witness_OutputsDependOnlyOnOperands :
    (∃ t, exec .g2087Dec (held [0x5A, 0xA0, 0x60]) = .next t) ∧
    (∃ t, exec .g2087Dec (held [0x5A, 0xA0, 0x7F]) = .next t) ∧
    (∀ o, o < operandBits .g2087Dec (held [0x5A, 0xA0, 0x60]) →
      (held [0x5A, 0xA0, 0x7F]).bit? o = (held [0x5A, 0xA0, 0x60]).bit? o) ∧
    (∃ t, exec .interleave (ilv 4 2 [0xF0]) = .next t) ∧ (∃ t, exec .interleave (ilv 4 2 [0xFF]) = .next t) ∧
    (ilv 4 2 [0xFF]).ilvN = (ilv 4 2 [0xF0]).ilvN ∧ (ilv 4 2 [0xFF]).ilvD = (ilv 4 2 [0xF0]).ilvD ∧
    (∀ o, o < operandBits .interleave (ilv 4 2 [0xF0]) → (ilv 4 2 [0xFF]).bit? o = (ilv 4 2 [0xF0]).bit? o) :=
  ⟨exists_of_goesOn (by decide +kernel), exists_of_goesOn (by decide +kernel), by decide +kernel,
    exists_of_goesOn (by decide +kernel), exists_of_goesOn (by decide +kernel), rfl, rfl, by decide +kernel⟩

theorem witness_CommandForgetsOldOutputs : ∃ t, (held [0x5A]).runCommand 0x20 = .next t :=
  exists_of_goesOn (by decide +kernel)

theorem witness_GetSyndromeIsSyn :
    (0x7FFFFF : BitVec 32).toNat < 2 * (0x400000 : BitVec 32).toNat ∧
    (0x07FFFF : BitVec 32).toNat < 2 * (0x040000 : BitVec 32).toNat := by decide

theorem witness_GolayCodeIsPerfect : popcount (0x400200 : BitVec 23) ≤ 3 ∧ syn 0x400200 = 0x43A := by decide +kernel

theorem witness_GolayThreeBytes : (held [0xDA, 0xA0, 0x60]).Holds 3 (at0 [0xDA, 0xA0, 0x60]) := by
  unfold State.Holds
  decide +kernel

theorem witness_G2087CorrectsThreeErrors :
    popcount ((0xE0001F : BitVec 24).extractLsb' 5 19) ≤ 3 ∧
    (held [0xBA, 0xA0, 0x7F]).Holds 3 (bytesOfWord (((0x5A#8 ++ chk12 0x5A) ++ 0x0#4) ^^^ 0xE0001F)) := by
  unfold State.Holds
  decide +kernel

theorem witness_G24128CorrectsThreeErrors :
    popcount (0x800401 : BitVec 24) ≤ 3 ∧ (held [0x2B, 0xC6, 0x3D]).Holds 3 (bytesOfWord (cw24 0xABC ^^^ 0x800401)) := by
  unfold State.Holds
  decide +kernel

theorem witness_G2087EncodesSystematically : (held [0x5A]).byte? 0 = some 0x5A := by decide

theorem witness_G24128EncodesSystematically : (held [0xAB, 0xC7]).Holds 2 (at0 [0xAB, 0xC7]) := by
  unfold State.Holds
  decide +kernel

theorem witness_FieldElements : (0x01 : GF64) ≠ 0 ∧ (0x3F : GF64) ≠ 0 := by decide

theorem witness_rsFamily : (rs24121, .rs24121Dec, .rs24121Enc) ∈ rsFamily ∧
    (rs24169, .rs24169Dec, .rs24169Enc) ∈ rsFamily ∧ (rs362017, .rs362017Dec, .rs362017Enc) ∈ rsFamily := by
  simp [rsFamily]

theorem witness_EncodedWordIsTheSystematicCodeword :
    (List.replicate 16 (0 : GF64)).length = rs24169.k ∧ rs24169.isCodeword (List.replicate 24 0) = true ∧
    (List.replicate 24 (0 : GF64)).take rs24169.k = List.replicate 16 0 := by decide +kernel

/-- Row 0 of the encode matrix (95_test_vectors.md §2.4): a codeword of weight nine, the least there is. -/
theorem witness_RsMinimumDistance :
    rs24169.isCodeword (1 :: List.replicate 15 0 ++ [0x29, 0x25, 0x37, 0x0D, 0x34, 0x37, 0x2A, 0x0A]) = true ∧
    rs24169.isCodeword (List.replicate 24 0) = true ∧
    1 :: List.replicate 15 0 ++ [0x29, 0x25, 0x37, 0x0D, 0x34, 0x37, 0x2A, 0x0A] ≠ List.replicate 24 (0 : GF64) := by
  decide +kernel

theorem witness_RsDecodeIsBoundedDistance : (List.replicate 24 (0 : GF64)).length = rs24169.n := by decide

/-- Four symbols of the all-zero codeword changed, as many as RS(24,16,9) corrects. -/
theorem witness_RsDecodeCommands :
    (held (padded [0x04, 0x10, 0x41])).Holds (6 * rs24169.n / 8) (at0 (padded [0x04, 0x10, 0x41])) ∧
    rs24169.isCodeword (List.replicate 24 0) = true ∧
    distance (symbolsOf (at0 (padded [0x04, 0x10, 0x41])) rs24169.n) (List.replicate 24 0) = 4 := by
  unfold State.Holds
  decide +kernel

/-- The failure clause: BUF of 95_test_vectors.md §2.5, five symbols in error, no codeword within four. -/
theorem witness_RsDecodeCommands_fail :
    (held uncorrectable).Holds (6 * rs24169.n / 8) (at0 uncorrectable) ∧
    exec .rs24169Dec (held uncorrectable) = .next { held uncorrectable with status := 0x02, result := 0x0000 } := by
  refine ⟨?_, eq_of_isNext (by decide +kernel)⟩
  unfold State.Holds
  decide +kernel

theorem witness_RsEncodeCommands :
    (held (padded [])).Holds (6 * rs24169.k / 8) (at0 (padded [])) := by
  unfold State.Holds
  decide +kernel

theorem witness_RsParityIsLinear : (List.replicate 12 (1 : GF64)).length = rs24121.k ∧
    (List.replicate 20 (1 : GF64)).length = rs362017.k := by decide

theorem witness_RsRoundTripCorrectionDetection :
    exec .rs24169Enc (held (List.replicate 12 0)) = .next (held (padded [])) ∧
    (held (padded [])).Holds (6 * rs24169.n / 8) (at0 (padded [])) ∧
    (held (padded [0x04, 0x10, 0x41])).Holds (6 * rs24169.n / 8) (at0 (padded [0x04, 0x10, 0x41])) ∧
    distance (symbolsOf (at0 (padded [0x04, 0x10, 0x41])) rs24169.n) (symbolsOf (at0 (padded [])) rs24169.n) = 4 := by
  refine ⟨eq_of_isNext (by decide +kernel), ?_⟩
  unfold State.Holds
  decide +kernel

/-- The detection clause. -/
theorem witness_RsRoundTripCorrectionDetection_fail :
    (held uncorrectable).Holds (6 * rs24169.n / 8) (at0 uncorrectable) ∧
    ∃ t, exec .rs24169Dec (held uncorrectable) = .next t ∧ t.failFlag = true :=
  ⟨witness_RsDecodeCommands_fail.1, _, witness_RsDecodeCommands_fail.2, rfl⟩

theorem witness_RsMiscorrectionExample :
    (held [0x01, 0x23, 0x45, 0x67, 0x89, 0xAB, 0xCD, 0xEF, 0xFE, 0xDC, 0xBA, 0x99, 0xF3, 0x27, 0x1A, 0xFC, 0xCA,
      0xFD]).Holds 18 ([0x01, 0x23, 0x45, 0x67, 0x89, 0xAB, 0xCD, 0xEF, 0xFE, 0xDC, 0xBA, 0x99, 0xF3, 0x27, 0x1A, 0xFC,
      0xCA, 0xFD].getD · 0) := by
  unfold State.Holds
  decide +kernel

theorem witness_WirePositionIsABijection :
    1 ≤ 216 ∧ 216 % 216 = 0 ∧ 216 % 1 = 0 ∧ 1 % 1 = 0 ∧ 215 < 216 ∧ wirePosition 12 3 11 = wirePosition 12 3 11 := by
  decide

theorem witness_InterleavePairs :
    (ilv 12 3 [0xAB, 0xCF]).ilvN.toNat = 12 ∧ (ilv 12 3 [0xAB, 0xCF]).ilvD.toNat = 3 ∧ 12 % 3 = 0 ∧
    (∀ j, j < (12 + 7) / 8 → (ilv 12 3 [0xAB, 0xCF]).byte? j ≠ none) ∧
    (ilv 216 216 (List.replicate 27 0)).ilvN.toNat = 216 ∧ (ilv 216 216 (List.replicate 27 0)).ilvD.toNat = 216 ∧
    (∀ j, j < (216 + 7) / 8 → (ilv 216 216 (List.replicate 27 0)).byte? j ≠ none) := by decide +kernel

theorem witness_dispatchFamilies : (.dispatchTsbk, .tsbk) ∈ dispatchFamilies ∧
    (.dispatchTdulc, .tdulc) ∈ dispatchFamilies ∧ (.dispatchRcch, .rcch) ∈ dispatchFamilies ∧
    (held [0xC0]).byte? 0 = some 0xC0 ∧ (0xC0 : Byte).extractLsb' 0 6 = 0 := by
  refine ⟨by simp [dispatchFamilies], by simp [dispatchFamilies], by simp [dispatchFamilies], by decide, by decide⟩

theorem witness_FieldWriteThenRead : 0 + 12 ≤ 12 ∧ 12 + 12 ≤ 24 := by decide

end Sys2Proof.Tests
end

section
/-! Bit fields of BUF (00_scope.md R10): what a field read returns after a field write. -/

namespace Sys2Proof.Machine

/-- Inside the field written, the bit k places from its start is the value's k-th, most significant first. -/
theorem bufWrite_apply_inside {w : Nat} (bit : Nat → Bool) (o : Nat) (v : BitVec w) {k : Nat} (hk : k < w) :
    bufWrite bit o v (o + k) = v.getMsbD k := by
  rw [bufWrite_apply, if_pos (by omega), Nat.add_sub_cancel_left]

theorem bufWrite_apply_outside {w : Nat} (bit : Nat → Bool) {o : Nat} (v : BitVec w) {p : Nat}
    (hp : p < o ∨ o + w ≤ p) : bufWrite bit o v p = bit p := by
  rw [bufWrite_apply, if_neg (by omega)]

/-- Reading the field just written: bit by bit the read is the value's own, and these bits make up the value. -/
theorem readBits_bufWrite_same {w : Nat} (bit : Nat → Bool) (o : Nat) (v : BitVec w) :
    readBits (bufWrite bit o v) o w = v :=
  calc readBits (bufWrite bit o v) o w
      = readBits v.getMsbD 0 w :=
        readBits_congr fun k hk => by rw [bufWrite_apply_inside bit o v hk, Nat.zero_add]
    _ = v := readBits_getMsbD v

/-- Reading a field disjoint from the one written: it covers none of the bits the write changes. -/
theorem readBits_bufWrite_disjoint {w : Nat} (bit : Nat → Bool) {o : Nat} (v : BitVec w) {o' w' : Nat}
    (h : o' + w' ≤ o ∨ o + w ≤ o') : readBits (bufWrite bit o v) o' w' = readBits bit o' w' :=
  readBits_congr fun _ _ => bufWrite_apply_outside bit v (by omega)

/-- The bit order of 00_scope.md R10, counted from the byte's least significant bit. -/
theorem bufBit_eq_getLsbD (bytes : List Byte) (p : Nat) :
    bufBit bytes p = (bytes.getD (p / 8) 0).getLsbD (7 - p % 8) := by
  have hp : p % 8 < 8 := Nat.mod_lt p (by decide)
  rw [bufBit, BitVec.getMsbD_eq_getLsbD, decide_eq_true hp, Bool.true_and]

/-- Settles O56: the field written reads back by `readBits_bufWrite_same`, any disjoint field by
`readBits_bufWrite_disjoint`, and `bufBit_eq_getLsbD` ties offsets to bytes. -/
theorem fieldWriteThenRead : Obligations.FieldWriteThenRead := fun _ o v bit =>
  ⟨readBits_bufWrite_same bit o v, fun _ _ h => readBits_bufWrite_disjoint bit v h, bufBit_eq_getLsbD⟩

end Sys2Proof.Machine
end

section
/-! What a command leaves behind. Every command is an operand check and then a run of bytes, a STATUS and a RESULT that
the bytes checked and the interleave pair determine (10_state.md R33, 30_encoding.md R76, 44_control.md R201):
`exec_eq`. -/

namespace Sys2Proof.Machine

/-- What a command writes: `bytes` to BUF from index `first` on, STATUS and RESULT. -/
structure Effect where
  first : Nat
  bytes : List Byte
  status : Byte
  result : Half

/-- The effect that leaves BUF as it is. -/
def Effect.answer (status : Byte) (result : Half) : Effect := ⟨0, [], status, result⟩

def State.withEffect (s : State) (e : Effect) : State := (s.setBytes e.first e.bytes).complete e.status e.result

/-- What `rsDecodeBytes` writes (41_reed_solomon.md R161, R162, R163). -/
def rsDecodeEffect (code : RsCode) (bytes : List Byte) : Effect :=
  match code.decode (readSymbols bytes code.n) with
  | some c => ⟨0, bytesOf (writeSymbols (bufBit bytes) 0 (c.take code.k)) 0 (6 * code.k / 8), 0x00,
      BitVec.ofNat 16 (distance (readSymbols bytes code.n) c)⟩
  | none => .answer 0x02 0x0000

/-- What `rsEncodeBytes` writes (41_reed_solomon.md R147, R148). -/
def rsEncodeEffect (code : RsCode) (bytes : List Byte) : Effect :=
  ⟨6 * code.k / 8, bytesOf (writeSymbols (bufBit bytes) code.k ((code.encode (readSymbols bytes code.k)).drop code.k))
    (6 * code.k / 8) (6 * code.r / 8), 0x00, 0x0000⟩

/-- What `interleaveWith` writes for the pair (n, d) (42_interleave.md R182, R183, R184). -/
def interleaveEffect (source : (n d : Nat) → Nat → Nat) (n d : Nat) (bytes : List Byte) : Effect :=
  if ilvLegal n d then ⟨0, bytesOf (permuteBits n (source n d) bytes) 0 ((n + 7) / 8), 0x00, 0x0000⟩
  else .answer 0x01 0x0000

/-- What `dispatchFamily` writes (43_dispatch.md R192). -/
def dispatchEffect (f : Family) (bytes : List Byte) : Effect :=
  .answer (statusHit (Config.discKnown f (discriminator (bufRead bytes 0 8))))
    (0x00#8 ++ (discFlags (bufRead bytes 0 8) ++ discriminator (bufRead bytes 0 8)))

/-- What a command writes, from its operand bytes and the pair (ILV_N, ILV_D) (10_state.md R33). -/
def commandEffect (i : Instr) (n d : Nat) (bytes : List Byte) : Effect :=
  match i with
  | .nop => .answer 0x00 0x0000
  | .g2087Dec => .answer 0x00 ((golay2087Info (bufRead bytes 0 19)).setWidth 16)
  | .g2087Enc => ⟨1, [(chk12 (bufRead bytes 0 8)).extractLsb' 4 8,
      (chk12 (bufRead bytes 0 8)).extractLsb' 0 4 ++ 0#4], 0x00, 0x0000⟩
  | .g24128Dec => .answer 0x00 ((golay24128Info (bufRead bytes 0 23)).setWidth 16)
  | .g24128Enc => ⟨1, bytesOf (bufWrite (bufBit bytes) 12 ((cw24 (bufRead bytes 0 12)).extractLsb' 0 12)) 1 2,
      0x00, 0x0000⟩
  | .rs24121Dec => rsDecodeEffect rs24121 bytes
  | .rs24169Dec => rsDecodeEffect rs24169 bytes
  | .rs362017Dec => rsDecodeEffect rs362017 bytes
  | .rs24121Enc => rsEncodeEffect rs24121 bytes
  | .rs24169Enc => rsEncodeEffect rs24169 bytes
  | .rs362017Enc => rsEncodeEffect rs362017 bytes
  | .deinterleave => interleaveEffect wirePosition n d bytes
  | .interleave => interleaveEffect logicalBit n d bytes
  | .dispatchTsbk => dispatchEffect .tsbk bytes
  | .dispatchTdulc => dispatchEffect .tdulc bytes
  | .dispatchRcch => dispatchEffect .rcch bytes

section withEffectFields

variable (s : State) (e : Effect)

@[simp] theorem State.withEffect_buf : (s.withEffect e).buf = (s.setBytes e.first e.bytes).buf := rfl

@[simp] theorem State.withEffect_status : (s.withEffect e).status = e.status := rfl

@[simp] theorem State.withEffect_result : (s.withEffect e).result = e.result := rfl

@[simp] theorem State.withEffect_faulted : (s.withEffect e).faulted = s.faulted := State.setBytes_faulted ..

@[simp] theorem State.withEffect_program : (s.withEffect e).program = s.program := State.setBytes_program ..

@[simp] theorem State.withEffect_line : (s.withEffect e).line = s.line := State.setBytes_line ..

end withEffectFields

theorem ilvLegal_iff (n d : Nat) : ilvLegal n d = true ↔ 1 ≤ n ∧ n ≤ 216 ∧ 1 ≤ d ∧ n % d = 0 :=
  decide_eq_true_iff

theorem rsDecodeEffect_of_decode {code : RsCode} {bytes : List Byte} {c : List GF64}
    (h : code.decode (readSymbols bytes code.n) = some c) :
    rsDecodeEffect code bytes = ⟨0, bytesOf (writeSymbols (bufBit bytes) 0 (c.take code.k)) 0 (6 * code.k / 8), 0x00,
      BitVec.ofNat 16 (distance (readSymbols bytes code.n) c)⟩ := by
  simp only [rsDecodeEffect, h]

theorem rsDecodeEffect_of_fail {code : RsCode} {bytes : List Byte}
    (h : code.decode (readSymbols bytes code.n) = none) : rsDecodeEffect code bytes = .answer 0x02 0x0000 := by
  simp only [rsDecodeEffect, h]

theorem rsDecodeBytes_eq (code : RsCode) (s : State) (bytes : List Byte) :
    rsDecodeBytes code s bytes = s.withEffect (rsDecodeEffect code bytes) := by
  cases h : code.decode (readSymbols bytes code.n) with
  | some c => rw [rsDecodeBytes_of_decode h, rsDecodeEffect_of_decode h]; rfl
  | none => rw [rsDecodeBytes_of_fail h, rsDecodeEffect_of_fail h]; rfl

/-- An interleave command with an illegal pair needs no operand (42_interleave.md R182). -/
theorem interleaveWith_eq (source : (n d : Nat) → Nat → Nat) (s : State) :
    interleaveWith source s = s.withOperands (if s.ilvLegal then s.ilvBytes else 0) fun bytes =>
      s.withEffect (interleaveEffect source s.ilvN.toNat s.ilvD.toNat bytes) := by
  unfold interleaveWith interleaveEffect
  change _ = s.withOperands _ fun bytes => s.withEffect (if s.ilvLegal then _ else _)
  cases s.ilvLegal <;> rfl

/-- Every command checks its operand bytes and then writes its effect (30_encoding.md R76). -/
theorem exec_eq (i : Instr) (s : State) :
    exec i s = s.withOperands (operandBytes i s) fun bytes =>
      s.withEffect (commandEffect i s.ilvN.toNat s.ilvD.toNat bytes) := by
  cases i
  case rs24121Dec | rs24169Dec | rs362017Dec =>
    exact congrArg (s.withOperands _) (funext fun bytes => rsDecodeBytes_eq _ s bytes)
  case deinterleave | interleave => exact interleaveWith_eq _ s
  all_goals rfl

/-- Everything a command can do: write its effect, computed from its operand bytes, or fault on one of them that is
unwritten. -/
theorem exec_cases (i : Instr) (s : State) :
    (∃ bs, bs.length = operandBytes i s ∧ (∀ j, j < operandBytes i s → s.byte? j = bs[j]?) ∧
      exec i s = .next (s.withEffect (commandEffect i s.ilvN.toNat s.ilvD.toNat bs))) ∨
    (∃ j, j < operandBytes i s ∧ exec i s = .fault (.unwrittenRead j)) := by
  rw [exec_eq]
  obtain ⟨bs, hlen, hbytes, hnext⟩ | ⟨j, hj, -, -, hfault⟩ := s.withOperands_cases (operandBytes i s) _
  · exact .inl ⟨bs, hlen, hbytes, hnext⟩
  · exact .inr ⟨j, hj, hfault⟩

/-- No command needs a byte outside BUF (10_state.md R21, 30_encoding.md R80). -/
theorem operandBytes_le (i : Instr) (s : State) : operandBytes i s ≤ Config.bufBytes := by
  have pair : (if s.ilvLegal then s.ilvBytes else 0) ≤ Config.bufBytes := by
    split
    next h =>
      obtain ⟨-, hn, -⟩ := (ilvLegal_iff _ _).mp h
      simp only [State.ilvBytes, Config.bufBytes]
      omega
    · exact Nat.zero_le _
  cases i
  case deinterleave | interleave => exact pair
  all_goals exact Nat.le_of_ble_eq_true rfl

end Sys2Proof.Machine
end

section
/-! What a command byte leaves in STATUS and RESULT, and which byte may set which flag (10_state.md R24, R25, R26). -/

namespace Sys2Proof.Machine

theorem decode_encode (i : Instr) : decode (encode i) = .ok i := by cases i <;> rfl

/-- 30_encoding.md R73, R77: a byte that decodes to a command is that command's CMD value, by the sixteen rows of the
decoder. -/
theorem encode_of_decode {c : Byte} {i : Instr} (h : decode c = .ok i) : c = encode i := by
  have table : ∀ c : Byte, ∀ i ∈ (decode c).toOption, c = encode i := by decide +kernel
  exact table c i (by rw [h]; rfl)

/-- STATUS and RESULT after the command byte c: no flag and twelve bits at most, or one flag that c may set, with the
RESULT that goes with it (10_state.md R24, R26; 44_control.md R202). -/
inductive CommandOutputs (c : Byte) : Byte → Half → Prop where
  | plain {r : Half} (hr : r.toNat < 4096) : CommandOutputs c 0x00 r
  | illegal (hc : c = 0x70 ∨ c = 0x80 ∨ ∀ i, c ≠ encode i) : CommandOutputs c 0x01 0
  | fail (hc : c = 0x50 ∨ c = 0x51 ∨ c = 0x52) : CommandOutputs c 0x02 0
  | hit {r : Half} (hc : c = 0x90 ∨ c = 0x91 ∨ c = 0x92) (hr : r.toNat < 256) : CommandOutputs c 0x04 r

namespace CommandOutputs

variable {c st : Byte} {r : Half}

theorem zero : CommandOutputs c 0x00 0 := .plain (by decide)

theorem statusIsLegal (h : CommandOutputs c st r) : statusLegal st := by
  cases h with
  | plain hr => exact .inl rfl
  | illegal hc => exact .inr (.inl rfl)
  | fail hc => exact .inr (.inr (.inl rfl))
  | hit hc hr => exact .inr (.inr (.inr rfl))

theorem result_eq_zero (h : CommandOutputs c st r) (hst : st.getLsbD 0 = true ∨ st.getLsbD 1 = true) : r = 0 := by
  cases h with
  | plain hr => simp at hst
  | illegal hc => rfl
  | fail hc => rfl
  | hit hc hr => simp at hst

theorem resultBesideHit (h : CommandOutputs c st r) (hst : st = 0x04) : r.toNat < 256 := by
  cases h with
  | plain hr => simp at hst
  | illegal hc => simp at hst
  | fail hc => simp at hst
  | hit hc hr => exact hr

theorem resultIsTwelveBits (h : CommandOutputs c st r) : r.toNat < 4096 := by
  cases h with
  | plain hr => exact hr
  | illegal hc => decide
  | fail hc => decide
  | hit hc hr => omega

/-- ILLEGAL is set by a byte that may set it only. -/
theorem of_illegal (h : CommandOutputs c st r) (hst : st.getLsbD 0 = true) :
    c = 0x70 ∨ c = 0x80 ∨ ∀ i, c ≠ encode i := by
  cases h with
  | illegal hc => exact hc
  | plain hr => simp at hst
  | fail hc => simp at hst
  | hit hc hr => simp at hst

/-- FAIL is set by an RS decode command only. -/
theorem of_fail (h : CommandOutputs c st r) (hst : st.getLsbD 1 = true) : c = 0x50 ∨ c = 0x51 ∨ c = 0x52 := by
  cases h with
  | fail hc => exact hc
  | plain hr => simp at hst
  | illegal hc => simp at hst
  | hit hc hr => simp at hst

/-- HIT is set by a DISPATCH command only. -/
theorem of_hit (h : CommandOutputs c st r) (hst : st.getLsbD 2 = true) : c = 0x90 ∨ c = 0x91 ∨ c = 0x92 := by
  cases h with
  | hit hc hr => exact hc
  | plain hr => simp at hst
  | illegal hc => simp at hst
  | fail hc => simp at hst

end CommandOutputs

theorem toNat_setWidth_lt {v : Nat} (x : BitVec v) (w : Nat) : (x.setWidth w).toNat < 2 ^ v := by
  rw [BitVec.toNat_setWidth]
  exact (Nat.mod_le _ _).trans_lt x.isLt

/-- RESULT is the number of errors, which is at most t (41_reed_solomon.md R162). -/
theorem rsDecodeEffect_outputs {c : Byte} {code : RsCode} (bytes : List Byte) (ht : code.t < 4096)
    (hc : c = 0x50 ∨ c = 0x51 ∨ c = 0x52) :
    CommandOutputs c (rsDecodeEffect code bytes).status (rsDecodeEffect code bytes).result := by
  cases h : code.decode (readSymbols bytes code.n) with
  | some w =>
    rw [rsDecodeEffect_of_decode h]
    obtain ⟨-, hw⟩ := RsCode.decode_some h
    refine .plain ?_
    rw [BitVec.toNat_ofNat]
    exact (Nat.mod_le _ _).trans_lt (hw.trans_lt ht)
  | none =>
    rw [rsDecodeEffect_of_fail h]
    exact .fail hc

theorem interleaveEffect_outputs {c : Byte} (source : (n d : Nat) → Nat → Nat) (n d : Nat) (bytes : List Byte)
    (hc : c = 0x70 ∨ c = 0x80) :
    CommandOutputs c (interleaveEffect source n d bytes).status (interleaveEffect source n d bytes).result := by
  unfold interleaveEffect
  split
  · exact .zero
  · exact .illegal (hc.imp_right .inl)

/-- RESULT is the discriminator byte (43_dispatch.md R192). -/
theorem dispatchEffect_outputs {c : Byte} (f : Family) (bytes : List Byte) (hc : c = 0x90 ∨ c = 0x91 ∨ c = 0x92) :
    CommandOutputs c (dispatchEffect f bytes).status (dispatchEffect f bytes).result := by
  have byte : ∀ x : Byte, (0x00#8 ++ x).toNat < 256 := fun x => by
    rw [BitVec.toNat_append]
    simpa using x.isLt
  simp only [dispatchEffect, Effect.answer, statusHit_eq]
  split
  · exact .hit hc (byte _)
  · exact .plain ((byte _).trans (by decide))

theorem commandEffect_outputs (i : Instr) (n d : Nat) (bytes : List Byte) :
    CommandOutputs (encode i) (commandEffect i n d bytes).status (commandEffect i n d bytes).result := by
  cases i
  case nop | g2087Enc | g24128Enc | rs24121Enc | rs24169Enc | rs362017Enc => exact .zero
  case g2087Dec => exact .plain ((toNat_setWidth_lt _ _).trans (by decide))
  case g24128Dec => exact .plain (toNat_setWidth_lt _ _)
  case rs24121Dec | rs24169Dec | rs362017Dec => exact rsDecodeEffect_outputs bytes (by decide) (by decide)
  case deinterleave | interleave => exact interleaveEffect_outputs _ n d bytes (by decide)
  case dispatchTsbk | dispatchTdulc | dispatchRcch => exact dispatchEffect_outputs _ bytes (by decide)

/-- A command writes no byte outside BUF (10_state.md R21). -/
theorem commandEffect_fits (i : Instr) (n d : Nat) (bytes : List Byte) :
    (commandEffect i n d bytes).first + (commandEffect i n d bytes).bytes.length ≤ Config.bufBytes := by
  have decoded : ∀ code : RsCode, 6 * code.k / 8 ≤ 27 →
      (rsDecodeEffect code bytes).first + (rsDecodeEffect code bytes).bytes.length ≤ 27 := fun code hk => by
    unfold rsDecodeEffect
    split <;> simp [Effect.answer, hk]
  have permuted : ∀ source, (interleaveEffect source n d bytes).first +
      (interleaveEffect source n d bytes).bytes.length ≤ 27 := fun source => by
    unfold interleaveEffect
    split
    next h =>
      obtain ⟨-, hn, -⟩ := (ilvLegal_iff n d).mp h
      simp only [bytesOf_length]
      omega
    · exact Nat.zero_le _
  cases i
  case rs24121Dec | rs24169Dec | rs362017Dec => exact decoded _ (by decide)
  case deinterleave | interleave => exact permuted _
  case rs24121Enc | rs24169Enc | rs362017Enc | g24128Enc =>
    simp only [commandEffect, rsEncodeEffect, bytesOf_length]
    decide
  all_goals exact Nat.le_of_ble_eq_true rfl

/-- Everything a command byte that goes on can have done: CMD holds it, and an effect inside BUF is written whose STATUS
and RESULT that byte may leave. -/
theorem State.runCommand_effect {s t : State} {c : Byte} (h : s.runCommand c = .next t) :
    ∃ e : Effect, t = ({ s with cmd := c } : State).withEffect e ∧ e.first + e.bytes.length ≤ Config.bufBytes ∧
      CommandOutputs c e.status e.result := by
  obtain ⟨i, hi, hnext⟩ | ⟨⟨err, herr⟩, rfl⟩ := State.runCommand_cases h
  · obtain ⟨bs, -, -, heq⟩ | ⟨j, -, hfault⟩ := exec_cases i { s with cmd := c }
    · rw [heq] at hnext
      cases hnext
      exact ⟨_, rfl, commandEffect_fits .., encode_of_decode hi ▸ commandEffect_outputs ..⟩
    · rw [hfault] at hnext
      cases hnext
  · refine ⟨.answer 0x01 0, rfl, Nat.zero_le _, .illegal (.inr (.inr fun i hi => ?_))⟩
    rw [hi, decode_encode] at herr
    cases herr

/-- Settles O21: the four cases of `CommandOutputs` are the flags a command byte may set. -/
theorem commandSetsOneFlagAtMost : Obligations.CommandSetsOneFlagAtMost := by
  intro s t c h
  obtain ⟨e, rfl, -, hout⟩ := State.runCommand_effect h
  refine ⟨hout.statusIsLegal, hout.result_eq_zero,
    fun h70 h80 ⟨i, hi⟩ => Bool.eq_false_iff.mpr fun hflag => ?_,
    fun h50 h51 h52 => Bool.eq_false_iff.mpr fun hflag => ?_,
    fun h90 h91 h92 => Bool.eq_false_iff.mpr fun hflag => ?_⟩
  · rcases hout.of_illegal hflag with hc | hc | hc
    exacts [h70 hc, h80 hc, hc i hi]
  · rcases hout.of_fail hflag with hc | hc | hc
    exacts [h50 hc, h51 hc, h52 hc]
  · rcases hout.of_hit hflag with hc | hc | hc
    exacts [h90 hc, h91 hc, h92 hc]

end Sys2Proof.Machine
end

section
/-! The invariant `State.Inv` along every step, one that faults among them (10_state.md R21, R22, R24, R26, R34). -/

namespace Sys2Proof.Machine

/-- Settles O12: every field is the value `State.reset` writes, and an empty BUF has no byte. -/
theorem resetStateValues : Obligations.ResetStateValues :=
  ⟨fun _ => rfl, rfl, rfl, rfl, rfl, rfl, rfl, rfl, rfl, rfl⟩

/-- The block's reset gives the invariant whatever the block held; only the host's position is kept. -/
theorem State.resetBlock_inv {s : State} (hline : s.line ≤ s.program.length) : s.resetBlock.Inv where
  bufCanonical := s.resetBlock_buf_wf
  statusIsLegal := .inl rfl
  resultBesideIllegal _ := rfl
  resultBesideFail _ := rfl
  resultBesideHit _ := by simp
  resultIsTwelveBits := by simp
  faultInBuf i hi := by simp at hi
  lineInProgram := hline

/-- Settles O13: the state after reset is the reset block with a host that has no program. -/
theorem resetHasInvariant : Obligations.ResetHasInvariant := State.resetBlock_inv (s := State.reset) le_rfl

namespace State.Inv

variable {s t : State}

theorem withEffect {e : Effect} {c : Byte} (hs : s.Inv) (hfits : e.first + e.bytes.length ≤ Config.bufBytes)
    (hout : CommandOutputs c e.status e.result) : (s.withEffect e).Inv where
  bufCanonical := State.setBytes_wf hs.bufCanonical hfits
  statusIsLegal := hout.statusIsLegal
  resultBesideIllegal hst := hout.result_eq_zero (.inl (by rw [show e.status = 0x01 from hst]; rfl))
  resultBesideFail hst := hout.result_eq_zero (.inr (by rw [show e.status = 0x02 from hst]; rfl))
  resultBesideHit := hout.resultBesideHit
  resultIsTwelveBits := hout.resultIsTwelveBits
  faultInBuf := by simpa using hs.faultInBuf
  lineInProgram := by simpa using hs.lineInProgram

theorem runCommand {c : Byte} (hs : s.Inv) (h : s.runCommand c = .next t) : t.Inv := by
  obtain ⟨e, rfl, hfits, hout⟩ := State.runCommand_effect h
  have hcmd : ({ s with cmd := c } : State).Inv := { hs with }
  exact hcmd.withEffect hfits hout

end State.Inv

/-- A window offset of BUF is one of its 27 bytes (20_memory.md R50). -/
theorem place_buf_lt {off : Offset} {i : Nat} (h : place off = .buf i) : i < Config.bufBytes := by
  unfold place at h
  split_ifs at h with hoff
  cases h
  exact hoff

namespace State.Inv

variable {s t : State}

theorem writeWindow {off : Offset} {v : Byte} (hs : s.Inv) (h : s.writeWindow off v = .next t) : t.Inv := by
  obtain ⟨i, hi, rfl⟩ | ⟨-, hrun⟩ | ⟨-, rfl⟩ | ⟨-, rfl⟩ | rfl := State.writeWindow_cases h
  · exact { hs with bufCanonical := Memory.write_wf v hs.bufCanonical (place_buf_lt hi) }
  · exact hs.runCommand hrun
  · exact { hs with }
  · exact { hs with }
  · exact hs

theorem act {a : Action} (hs : s.Inv) (h : s.act a = .next t) : t.Inv := by
  cases a with
  | wr off v => exact hs.writeWindow h
  | rd off =>
    simp only [State.act] at h
    split at h
    · cases h
      exact { hs with }
    · cases h
  | comment text =>
    cases h
    exact hs
  | reset =>
    cases h
    exact State.resetBlock_inv hs.lineInProgram

theorem nextLine {a : Action} (hs : s.Inv) (ha : s.program[s.line]? = some a) : s.nextLine.Inv :=
  { hs with lineInProgram := (List.getElem?_eq_some_iff.mp ha).1 }

theorem step (hs : s.Inv) (h : Machine.step s = .next t) : t.Inv := by
  obtain ⟨ha, rfl⟩ | ⟨a, ha, -, hact⟩ | ⟨-, -, rfl⟩ := step_cases h
  · exact State.resetBlock_inv (hs.nextLine ha).lineInProgram
  · exact (hs.nextLine ha).act hact
  · exact hs

end State.Inv

theorem State.runCommand_fault {s : State} {c : Byte} {j : Nat} (h : s.runCommand c = .fault (.unwrittenRead j)) :
    j < Config.bufBytes := by
  unfold State.runCommand at h
  split at h
  next i _ =>
    obtain ⟨bs, -, -, hnext⟩ | ⟨k, hk, hfault⟩ := exec_cases i { s with cmd := c }
    · rw [hnext] at h
      cases h
    · rw [hfault] at h
      cases h
      exact hk.trans_le (operandBytes_le i _)
  · cases h

theorem State.writeWindow_fault {s : State} {off : Offset} {v : Byte} {j : Nat}
    (h : s.writeWindow off v = .fault (.unwrittenRead j)) : j < Config.bufBytes := by
  unfold State.writeWindow at h
  split at h
  case h_2 => exact State.runCommand_fault h
  all_goals cases h

theorem State.readWindow_error {s : State} {off : Offset} {j : Nat}
    (h : s.readWindow off = .error (.unwrittenRead j)) : j < Config.bufBytes := by
  unfold State.readWindow at h
  split at h
  next i hi =>
    split at h
    · cases h
    · cases h
      exact place_buf_lt hi
  all_goals cases h

/-- A host access can fault on a byte of BUF only. -/
theorem State.act_fault {s : State} {a : Action} {j : Nat} (h : s.act a = .fault (.unwrittenRead j)) :
    j < Config.bufBytes := by
  cases a with
  | wr off v => exact State.writeWindow_fault h
  | rd off =>
    simp only [State.act] at h
    split at h
    · cases h
    next r hr =>
      cases h
      exact State.readWindow_error hr
  | comment text => cases h
  | reset => cases h

/-- Once a fault is recorded, every action but a reset answers it again (10_state.md R34). -/
theorem step_of_faulted {s : State} {r : Fault} (hf : s.faulted = some r) (ha : s.program[s.line]? ≠ some .reset) :
    step s = .fault r := by
  cases hline : s.program[s.line]? with
  | none => simp only [step, hline, State.idle, hf]
  | some a =>
    cases a with
    | reset => exact absurd hline ha
    | wr off v => simp only [step, hline, State.runLine, hf]
    | rd off => simp only [step, hline, State.runLine, hf]
    | comment text => simp only [step, hline, State.runLine, hf]

/-- A record that is there stays (10_state.md R34). -/
theorem State.recordFault_of_faulted {s : State} {q : Fault} (hf : s.faulted = some q) (r : Fault) :
    s.recordFault r = s := by
  unfold State.recordFault
  rw [hf, Option.getD_some, ← hf]

theorem State.recordFault_of_running {s : State} (hf : s.faulted = none) (r : Fault) :
    s.recordFault r = { s with faulted := some r } := by
  rw [State.recordFault, hf, Option.getD_none]

/-- Settles O16: the step answers the recorded fault, and recording it again changes nothing. -/
theorem faultedRunStays : Obligations.FaultedRunStays := fun _ r hf ha =>
  have hstep := step_of_faulted hf ha
  ⟨hstep, (stepRecorded_of_fault hstep).trans (State.recordFault_of_faulted hf r)⟩

/-- A step that faults takes its fault from the record or from the host access of its line. -/
theorem step_fault_cases {s : State} {r : Fault} (h : step s = .fault r) :
    s.faulted = some r ∨ s.faulted = none ∧ ∃ a, s.nextLine.act a = .fault r := by
  cases hf : s.faulted with
  | none =>
    cases ha : s.program[s.line]? with
    | none =>
      rw [step_of_end hf ha] at h
      cases h
    | some a => exact .inr ⟨rfl, a, by rwa [step_of_line hf ha] at h⟩
  | some q =>
    by_cases ha : s.program[s.line]? = some .reset
    · rw [step_of_reset ha] at h
      cases h
    · rw [step_of_faulted hf ha] at h
      cases h
      exact .inl rfl

namespace State.Inv

variable {s : State}

theorem recordFault {r : Fault} (hs : s.Inv) (h : Machine.step s = .fault r) : (s.recordFault r).Inv := by
  obtain hf | ⟨hf, a, hact⟩ := step_fault_cases h
  · rwa [State.recordFault_of_faulted hf]
  · rw [State.recordFault_of_running hf]
    refine { hs with faultInBuf := fun i hi => ?_ }
    cases hi
    exact State.act_fault hact

theorem stepRecorded (hs : s.Inv) : (Machine.stepRecorded s).Inv := by
  obtain hnext | ⟨r, hfault, hrec⟩ | ⟨-, hrefused⟩ := stepRecorded_cases s
  · exact hs.step hnext
  · rw [hrec]
    exact hs.recordFault hfault
  · rwa [hrefused]

end State.Inv

/-- Settles O14: a step that goes on by `State.Inv.step`, a recorded step by `State.Inv.stepRecorded`. -/
theorem stepKeepsInvariant : Obligations.StepKeepsInvariant :=
  ⟨fun _ _ hs h => hs.step h, fun _ hs => hs.stepRecorded⟩

end Sys2Proof.Machine
end

section
/-! Noninterference: a command forgets the CMD, STATUS and RESULT it finds, and its outputs depend on the bits its rule
reads alone (10_state.md R33, 30_encoding.md R80). -/

namespace Sys2Proof.Machine

/-- The operand check reads BUF alone. -/
theorem State.readBytes_congr {s s' : State} {n : Nat} (h : ∀ j, j < n → s'.byte? j = s.byte? j) :
    s'.readBytes n = s.readBytes n := by
  induction n with
  | zero => rfl
  | succ n ih => simp only [State.readBytes, ih fun j hj => h j (by omega), h n (by omega)]

theorem State.withOperands_complete (s : State) (st : Byte) (r : Half) (n : Nat) (run : List Byte → State) :
    (s.complete st r).withOperands n run = s.withOperands n run := by
  simp only [State.withOperands, State.readBytes_congr fun j _ => s.complete_byte? st r j]

theorem State.setBytes_complete (s : State) (st : Byte) (r : Half) (i : Nat) (bs : List Byte) :
    (s.complete st r).setBytes i bs = (s.setBytes i bs).complete st r := by
  induction bs generalizing s i with
  | nil => rfl
  | cons b bs ih => exact ih (s.setByte i b) (i + 1)

/-- An effect overwrites STATUS and RESULT. -/
theorem State.withEffect_complete (s : State) (st : Byte) (r : Half) (e : Effect) :
    (s.complete st r).withEffect e = s.withEffect e := by
  rw [State.withEffect, State.setBytes_complete]
  rfl

/-- No command reads the STATUS and RESULT it finds. -/
theorem exec_complete (i : Instr) (s : State) (st : Byte) (r : Half) : exec i (s.complete st r) = exec i s := by
  have hn : operandBytes i (s.complete st r) = operandBytes i s := by cases i <;> rfl
  simp only [exec_eq, hn, State.withOperands_complete, State.withEffect_complete, State.complete_ilvN,
    State.complete_ilvD]

theorem State.runCommand_forgets (s : State) (c old st : Byte) (r : Half) :
    ({ s with cmd := old, status := st, result := r } : State).runCommand c = s.runCommand c := by
  unfold State.runCommand
  cases decode c with
  | ok i => exact exec_complete i { s with cmd := c } st r
  | error err => rfl

/-- Settles O23: the outcome of a command byte is the same from both states, by `State.runCommand_forgets`. -/
theorem commandForgetsOldOutputs : Obligations.CommandForgetsOldOutputs := fun s _ c old st r h =>
  (s.runCommand_forgets c old st r).trans h

/-- The bit an effect writes at an offset of BUF, if it writes one there. -/
def Effect.bit? (e : Effect) (o : Nat) : Option Bool :=
  if 8 * e.first ≤ o ∧ o < 8 * (e.first + e.bytes.length) then some (bufBit e.bytes (o - 8 * e.first)) else none

/-- After an effect a bit of BUF is the bit it writes, or else the bit that was there. -/
theorem State.withEffect_bit? (s : State) (e : Effect) (o : Nat) :
    (s.withEffect e).bit? o = (e.bit? o).or (s.bit? o) := by
  rw [State.withEffect, State.complete_bit?]
  simp only [State.bit?, State.setBytes_byte?, Effect.bit?]
  by_cases h : 8 * e.first ≤ o ∧ o < 8 * (e.first + e.bytes.length)
  · have hlt : o / 8 - e.first < e.bytes.length := by omega
    have hget : e.bytes[(o - 8 * e.first) / 8]? = some e.bytes[o / 8 - e.first] := by
      rw [show (o - 8 * e.first) / 8 = o / 8 - e.first by omega, List.getElem?_eq_getElem hlt]
    rw [if_pos h, if_pos (by omega), List.getElem?_eq_getElem hlt, bufBit_of_getElem? hget,
      show (o - 8 * e.first) % 8 = o % 8 by omega]
    rfl
  · rw [if_neg h, if_neg (by omega)]
    rfl

/-- A run of bytes made of a function's bits writes these bits. -/
theorem Effect.bit?_bytesOf {bit : Nat → Bool} {first count o : Nat} (st : Byte) (r : Half) (h : 8 * first ≤ o)
    (h' : o < 8 * (first + count)) : (⟨first, bytesOf bit first count, st, r⟩ : Effect).bit? o = some (bit o) := by
  have hget : (bytesOf bit first count)[(o - 8 * first) / 8]? = some (readBits bit (8 * (o / 8)) 8) := by
    rw [bytesOf_getElem? (by omega), show first + (o - 8 * first) / 8 = o / 8 by omega]
  simp only [Effect.bit?, bytesOf_length]
  rw [if_pos ⟨h, h'⟩, bufBit_of_getElem? hget, getMsbD_readBits, show (o - 8 * first) % 8 = o % 8 by omega,
    decide_eq_true (Nat.mod_lt o (by decide)), Bool.true_and, Nat.div_add_mod]

/-- Byte lists of one length with the same bits are the same. -/
theorem bytes_eq_of_bufBit_eq {bs bs' : List Byte} (hlen : bs'.length = bs.length)
    (h : ∀ o, o < 8 * bs.length → bufBit bs' o = bufBit bs o) : bs' = bs := by
  refine List.ext_getElem hlen fun k hk' hk => BitVec.eq_of_getMsbD_eq fun b hb => ?_
  have hbit := h (8 * k + b) (by omega)
  have hdiv : (8 * k + b) / 8 = k := by omega
  have hmod : (8 * k + b) % 8 = b := by omega
  rwa [bufBit_of_getElem? (b := bs'[k]) (by rw [hdiv, List.getElem?_eq_getElem]),
    bufBit_of_getElem? (b := bs[k]) (by rw [hdiv, List.getElem?_eq_getElem]), hmod] at hbit

/-- Fields read from byte lists agree when the bits below the field's end do. -/
theorem bufRead_congr {bs bs' : List Byte} {o w : Nat} (h : ∀ p, p < o + w → bufBit bs' p = bufBit bs p) :
    bufRead bs' o w = bufRead bs o w :=
  readBits_congr fun _ hk => h _ (by omega)

/-- A legal pair's permutation takes no bit from outside the first N (42_interleave.md R181). -/
theorem wirePosition_lt {n d i : Nat} (h : ilvLegal n d = true) (hi : i < n) : wirePosition n d i < n := by
  obtain ⟨hn, -, hd, hdvd⟩ := (ilvLegal_iff n d).mp h
  obtain ⟨k, rfl⟩ := Nat.dvd_of_mod_eq_zero hdvd
  have hk : 0 < k := Nat.pos_of_mul_pos_left hn
  rw [wirePosition, Nat.mul_div_cancel_left k hd]
  have hrow : i / k < d := Nat.div_lt_of_lt_mul (by rwa [Nat.mul_comm])
  have hcol : (i % k + 1) * d ≤ k * d := Nat.mul_le_mul_right d (Nat.mod_lt i hk)
  calc i % k * d + i / k < (i % k + 1) * d := by rw [Nat.succ_mul]; omega
    _ ≤ d * k := by rwa [Nat.mul_comm d]

theorem logicalBit_lt {n d p : Nat} (h : ilvLegal n d = true) (hp : p < n) : logicalBit n d p < n := by
  obtain ⟨-, -, hd, hdvd⟩ := (ilvLegal_iff n d).mp h
  obtain ⟨k, rfl⟩ := Nat.dvd_of_mod_eq_zero hdvd
  rw [logicalBit, Nat.mul_div_cancel_left k hd]
  have hcol : p / d < k := Nat.div_lt_of_lt_mul hp
  calc p % d * k + p / d < (p % d + 1) * k := by rw [Nat.succ_mul]; omega
    _ ≤ d * k := Nat.mul_le_mul_right k (Nat.mod_lt p hd)

/-- The part of an effect that is a command's output: STATUS, RESULT and the bits it writes at offsets lo, …, hi − 1
(10_state.md R33). -/
structure SameOutputs (lo hi : Nat) (e e' : Effect) : Prop where
  status : e'.status = e.status
  result : e'.result = e.result
  bits : ∀ o, lo ≤ o → o < hi → e'.bit? o = e.bit? o

theorem SameOutputs.of_eq {lo hi : Nat} {e e' : Effect} (h : e' = e) : SameOutputs lo hi e e' := by
  subst h
  exact ⟨rfl, rfl, fun _ _ _ => rfl⟩

/-- An interleave command permutes the first N bits among themselves; the rest of the last byte is not one of them. -/
theorem interleaveEffect_congr {source : (n d : Nat) → Nat → Nat} {n d : Nat} {bs bs' : List Byte}
    (hsource : ∀ p, p < n → source n d p < n) (h : ∀ o, o < n → bufBit bs' o = bufBit bs o)
    (hlegal : ilvLegal n d = true) :
    SameOutputs 0 n (interleaveEffect source n d bs) (interleaveEffect source n d bs') := by
  unfold interleaveEffect
  rw [if_pos hlegal, if_pos hlegal]
  refine ⟨rfl, rfl, fun o _ ho => ?_⟩
  rw [Effect.bit?_bytesOf _ _ (by omega) (by omega), Effect.bit?_bytesOf _ _ (by omega) (by omega)]
  simp only [permuteBits, if_pos ho, h _ (hsource o ho)]

/-- A command's output is a function of the bits its rule reads (10_state.md R33). A command that reads its operand
bytes whole has the same effect; the others are the Golay decoders, G24128_ENC and the interleave commands, which read
part of their last byte. -/
theorem commandEffect_congr (i : Instr) (s : State) {bs bs' : List Byte} (hlen : bs.length = operandBytes i s)
    (hlen' : bs'.length = operandBytes i s) (h : ∀ o, o < operandBits i s → bufBit bs' o = bufBit bs o) :
    SameOutputs (writtenBits i s).1 (writtenBits i s).2 (commandEffect i s.ilvN.toNat s.ilvD.toNat bs)
      (commandEffect i s.ilvN.toNat s.ilvD.toNat bs') := by
  by_cases whole : operandBits i s = 8 * operandBytes i s
  · rw [bytes_eq_of_bufBit_eq (hlen'.trans hlen.symm) fun o ho => h o (by omega)]
    exact .of_eq rfl
  have legal : i = .deinterleave ∨ i = .interleave → s.ilvLegal = true := fun hi => by
    by_contra hl
    rcases hi with rfl | rfl <;> exact whole (by simp only [operandBits, operandBytes, if_neg hl])
  cases i
  case g2087Dec =>
    have hread : bufRead bs' 0 19 = bufRead bs 0 19 := bufRead_congr h
    exact .of_eq (by simp only [commandEffect, hread])
  case g24128Dec =>
    have hread : bufRead bs' 0 23 = bufRead bs 0 23 := bufRead_congr h
    exact .of_eq (by simp only [commandEffect, hread])
  case g24128Enc =>
    have hread : bufRead bs' 0 12 = bufRead bs 0 12 := bufRead_congr h
    refine ⟨rfl, rfl, fun o (ho : 12 ≤ o) (ho' : o < 24) => ?_⟩
    simp only [commandEffect, hread]
    rw [Effect.bit?_bytesOf _ _ (by omega) (by omega), Effect.bit?_bytesOf _ _ (by omega) (by omega), bufWrite_apply,
      bufWrite_apply, if_pos (by omega), if_pos (by omega)]
  case deinterleave =>
    have hl := legal (.inl rfl)
    simp only [operandBits, if_pos hl] at h
    simp only [writtenBits, if_pos hl]
    exact interleaveEffect_congr (fun p => wirePosition_lt hl) h hl
  case interleave =>
    have hl := legal (.inr rfl)
    simp only [operandBits, if_pos hl] at h
    simp only [writtenBits, if_pos hl]
    exact interleaveEffect_congr (fun p => logicalBit_lt hl) h hl
  all_goals exact absurd rfl whole

/-- A bit a command may write and does not is one it reads: an RS decoder that fails leaves such bits. -/
theorem commandEffect_covers (i : Instr) (s : State) (bs : List Byte) {o : Nat} (hlo : (writtenBits i s).1 ≤ o)
    (hhi : o < (writtenBits i s).2) :
    o < operandBits i s ∨ ((commandEffect i s.ilvN.toNat s.ilvD.toNat bs).bit? o).isSome := by
  have run : ∀ e : Effect, 8 * e.first ≤ o → o < 8 * (e.first + e.bytes.length) → (e.bit? o).isSome := by
    intro e h h'
    rw [Effect.bit?, if_pos ⟨h, h'⟩]
    rfl
  cases i
  case rs24121Dec | rs24169Dec | rs362017Dec | deinterleave | interleave =>
    simp only [writtenBits, operandBits] at hhi ⊢
    omega
  case g2087Enc | g24128Enc | rs24121Enc | rs24169Enc | rs362017Enc =>
    refine .inr (run _ ?_ ?_) <;>
      simp only [writtenBits, commandEffect, rsEncodeEffect, RsCode.r, rs24121, rs24169, rs362017, bytesOf_length,
        List.length_cons, List.length_nil] at hlo hhi ⊢ <;>
      omega
  all_goals exact absurd hhi (Nat.not_lt_zero o)

/-- The operands of a command other than the interleave ones do not depend on the pair (10_state.md R33). -/
theorem operands_congr {i : Instr} {s s' : State}
    (h : i = .deinterleave ∨ i = .interleave → s'.ilvN = s.ilvN ∧ s'.ilvD = s.ilvD) :
    operandBytes i s' = operandBytes i s ∧
    commandEffect i s'.ilvN.toNat s'.ilvD.toNat = commandEffect i s.ilvN.toNat s.ilvD.toNat := by
  cases i
  case deinterleave | interleave =>
    obtain ⟨hn, hd⟩ := h (by decide)
    have hlegal : s'.ilvLegal = s.ilvLegal := by simp only [State.ilvLegal, hn, hd]
    have hcount : s'.ilvBytes = s.ilvBytes := by simp only [State.ilvBytes, hn]
    exact ⟨by simp only [operandBytes, hlegal, hcount], by rw [hn, hd]⟩
  all_goals exact ⟨rfl, rfl⟩

theorem operandBits_le (i : Instr) (s : State) : operandBits i s ≤ 8 * operandBytes i s := by
  have pair : (if s.ilvLegal then s.ilvN.toNat else 0) ≤ 8 * (if s.ilvLegal then s.ilvBytes else 0) := by
    unfold State.ilvBytes
    split <;> omega
  cases i
  case deinterleave | interleave => exact pair
  all_goals exact Nat.le_of_ble_eq_true rfl

/-- A command that goes on has written the effect of its operand bytes, which are BUF's. -/
theorem exec_next {i : Instr} {s t : State} (h : exec i s = .next t) :
    ∃ bs, bs.length = operandBytes i s ∧ (∀ o, o < 8 * operandBytes i s → s.bit? o = some (bufBit bs o)) ∧
      t = s.withEffect (commandEffect i s.ilvN.toNat s.ilvD.toNat bs) := by
  obtain ⟨bs, hlen, hbytes, hnext⟩ | ⟨j, -, hfault⟩ := exec_cases i s
  · rw [hnext] at h
    cases h
    exact ⟨bs, hlen, fun _ => State.bit?_eq_bufBit hlen hbytes, rfl⟩
  · rw [hfault] at h
    cases h

/-- Settles O22: both ends are the effects of operand bytes with the same bits, by `commandEffect_congr`; a bit that
neither effect writes is one of the bits read, by `commandEffect_covers`. -/
theorem outputsDependOnlyOnOperands : Obligations.OutputsDependOnlyOnOperands := by
  intro i s s' t t' h h' hpair hbits
  obtain ⟨bs, hlen, hbs, rfl⟩ := exec_next h
  obtain ⟨hbytes, heffect⟩ := operands_congr hpair
  obtain ⟨bs', hlen', hbs', rfl⟩ := exec_next h'
  rw [hbytes] at hlen' hbs'
  rw [heffect]
  have agree : ∀ o, o < operandBits i s → bufBit bs' o = bufBit bs o := fun o ho => by
    have hread : o < 8 * operandBytes i s := ho.trans_le (operandBits_le i s)
    exact Option.some.inj ((hbs' o hread).symm.trans ((hbits o ho).trans (hbs o hread)))
  have same := commandEffect_congr i s hlen hlen' agree
  refine ⟨same.status, same.result, fun o hlo hhi => ?_⟩
  rw [State.withEffect_bit?, State.withEffect_bit?, same.bits o hlo hhi]
  obtain hread | hwritten := commandEffect_covers i s bs hlo hhi
  · rw [hbits o hread]
  · obtain ⟨b, hb⟩ := Option.isSome_iff_exists.mp hwritten
    rw [hb, Option.some_or, Option.some_or]

end Sys2Proof.Machine
end

section
/-! A fault at one of several blocks, and its reset (20_memory.md R65, 70_reset_and_hazards.md R230, R231). -/

namespace Sys2Proof.Machine

theorem stepInstance_step_of_next {system : List State} {k : Nat} {t t' : State} (ht : system[k]? = some t)
    (h : step t = .next t') : stepInstance system (k, .step) = system.set k t' := by
  rw [stepInstance_eq_set ht, State.onEvent_step, stepRecorded_of_next h]

/-- An event at the index just replaced acts on the state put there. -/
theorem stepInstance_set {system : List State} {j : Nat} {s : State} (hj : system[j]? = some s) (t : State)
    (e : InstanceEvent) : stepInstance (system.set j t) (j, e) = system.set j (t.onEvent e) := by
  obtain ⟨hlt, -⟩ := List.getElem?_eq_some_iff.mp hj
  rw [stepInstance_eq_set (List.getElem?_set_self hlt), List.set_set]

/-- A fault is recorded where it happens, and in its record alone (10_state.md R34). -/
theorem stepInstance_step_of_fault {system : List State} {j : Nat} {s : State} {r : Fault} (hs : system[j]? = some s)
    (hf : s.faulted = none) (h : step s = .fault r) :
    stepInstance system (j, .step) = system.set j { s with faulted := some r } := by
  rw [stepInstance_eq_set hs, State.onEvent_step, stepRecorded_of_fault h, State.recordFault_of_running hf]

/-- Of a block that has been reset and given a program, the next step takes the first line (log entry 2). -/
theorem step_loadProgram_resetBlock (s : State) (a : Action) (p : List Action) :
    step (s.resetBlock.loadProgram (a :: p)) = ({ s.resetBlock with program := a :: p, line := 1 } : State).act a :=
  step_of_line rfl rfl

/-- Settles O58: the fault by `stepInstance_step_of_fault`, the step of another index on the list it leaves, and the end
of the stop by `step_loadProgram_resetBlock`. -/
theorem faultStopsOneInstance : Obligations.FaultStopsOneInstance := by
  refine ⟨fun system j s r hs hf hfault => ?_, fun system j s hs => ?_⟩
  · have hstep := stepInstance_step_of_fault hs hf hfault
    refine ⟨hstep, fun k t t' hkj ht hnext => ?_⟩
    rw [runInstances_cons, runInstances_cons, runInstances_nil, hstep]
    exact stepInstance_step_of_next (by rwa [List.getElem?_set_ne hkj.symm]) hnext
  · refine ⟨s.resetBlock, rfl, rfl, rfl, rfl, rfl, rfl, fun _ => rfl, stepInstance_eq_set hs .reset,
      fun a p u hact => ?_⟩
    have hnext := (step_loadProgram_resetBlock s a p).trans hact
    rw [runInstances_cons, runInstances_cons, runInstances_cons, runInstances_nil, stepInstance_eq_set hs,
      stepInstance_set hs, stepInstance_set hs, State.onEvent_reset, State.onEvent_load, State.onEvent_step,
      stepRecorded_of_next hnext]

end Sys2Proof.Machine
end

section
/-! Several blocks as a product of independent machines (20_memory.md R65). -/

namespace Sys2Proof.Machine

/-- The events at one index, in the order in which they happen there. -/
def eventsOf (k : Nat) (events : List (Nat × InstanceEvent)) : List InstanceEvent :=
  (events.filter fun e => e.1 == k).map Prod.snd

theorem eventsOf_cons_same {k : Nat} {e : Nat × InstanceEvent} (h : e.1 = k) (es : List (Nat × InstanceEvent)) :
    eventsOf k (e :: es) = e.2 :: eventsOf k es := by
  rw [eventsOf, List.filter_cons_of_pos (by simpa using h), List.map_cons, ← eventsOf]

theorem eventsOf_cons_other {k : Nat} {e : Nat × InstanceEvent} (h : e.1 ≠ k) (es : List (Nat × InstanceEvent)) :
    eventsOf k (e :: es) = eventsOf k es := by
  rw [eventsOf, List.filter_cons_of_neg (by simpa using h), ← eventsOf]

/-- Each index of the system ends as its own events alone take it, by induction on the interleaving. -/
theorem runInstances_getElem? (system : List State) (events : List (Nat × InstanceEvent)) (k : Nat) :
    (runInstances system events)[k]? = system[k]?.map fun s => (eventsOf k events).foldl State.onEvent s := by
  induction events generalizing system with
  | nil => simp [eventsOf]
  | cons e es ih =>
    rw [runInstances_cons, ih, stepInstance_getElem?]
    by_cases h : e.1 = k
    · rw [if_pos h, eventsOf_cons_same h, Option.map_map]
      rfl
    · rw [if_neg h, eventsOf_cons_other h]

@[simp] theorem runInstances_length (system : List State) (events : List (Nat × InstanceEvent)) :
    (runInstances system events).length = system.length := by
  induction events generalizing system with
  | nil => rfl
  | cons e es ih => rw [runInstances_cons, ih, stepInstance_length]

theorem runInstances_steps_of_next {system : List State} {j k : Nat} {s s' t t' : State} (hjk : j ≠ k)
    (hs : system[j]? = some s) (ht : system[k]? = some t) (hstep : step s = .next s') (hstep' : step t = .next t') :
    runInstances system [(j, .step), (k, .step)] = (system.set j s').set k t' := by
  rw [runInstances_cons, runInstances_cons, runInstances_nil, stepInstance_step_of_next hs hstep]
  exact stepInstance_step_of_next (by rwa [List.getElem?_set_ne hjk]) hstep'

/-- Settles O18: the product by `runInstances_getElem?`, and both orders of two steps by `runInstances_steps_of_next`,
since replacing the states at two different indices commutes. -/
theorem instancesDoNotInterfere : Obligations.InstancesDoNotInterfere := by
  refine ⟨runInstances_getElem?, fun system j k s s' t t' hjk hs ht hstep hstep' => ⟨?_, ?_⟩⟩
  · exact runInstances_steps_of_next hjk hs ht hstep hstep'
  · exact (runInstances_steps_of_next hjk.symm ht hs hstep' hstep).trans (List.set_comm t' s' hjk.symm)

namespace State.Inv

variable {s : State}

theorem onEvent (hs : s.Inv) (e : InstanceEvent) : (s.onEvent e).Inv := by
  cases e with
  | step => exact hs.stepRecorded
  | reset => exact State.resetBlock_inv hs.lineInProgram
  | load program => exact { hs with lineInProgram := Nat.zero_le _ }

theorem foldl_onEvent (hs : s.Inv) (es : List InstanceEvent) : (es.foldl State.onEvent s).Inv := by
  induction es generalizing s with
  | nil => exact hs
  | cons e es ih => exact ih (hs.onEvent e)

end State.Inv

/-- Settles O59: each state of the end is a state of the start taken by its own events (`runInstances_getElem?`), and
each event keeps the invariant. -/
theorem eventsKeepEveryInvariant : Obligations.EventsKeepEveryInvariant := by
  refine fun system events hinv => ⟨runInstances_length system events, fun t ht => ?_⟩
  obtain ⟨k, hk⟩ := List.mem_iff_getElem?.mp ht
  rw [runInstances_getElem?] at hk
  obtain ⟨s, hs, rfl⟩ := Option.map_eq_some_iff.mp hk
  exact (hinv s (List.mem_of_getElem? hs)).foldl_onEvent _

end Sys2Proof.Machine
end

section
/-! The register window: what stands at each offset, and what a host read and a host write do there (20_memory.md R50,
R51, R53, R56). -/

namespace Sys2Proof.Machine

theorem place_of_lt {off : Offset} (h : off.toNat < 27) : place off = .buf off.toNat := if_pos h

/-- The offsets after BUF that the window map does not name (20_memory.md R50). -/
theorem place_of_reserved {off : Offset} (h : off.toNat = 0x1B ∨ 0x22 ≤ off.toNat) : place off = .reserved := by
  have unnamed : ∀ n : Offset, n.toNat ≠ 0x1B ∧ n.toNat < 0x22 → off ≠ n := by
    rintro n hn rfl
    omega
  have hbuf : ¬ off.toNat < Config.bufBytes := by
    simp only [Config.bufBytes]
    omega
  simp [place, hbuf, unnamed]

section windowRules

variable (s : State) {off : Offset}

theorem State.readWindow_of_written {b : Byte} (h : off.toNat < 27) (hb : s.byte? off.toNat = some b) :
    s.readWindow off = .ok b := by
  simp only [State.readWindow, place_of_lt h, hb]

theorem State.readWindow_of_unwritten (h : off.toNat < 27) (hb : s.byte? off.toNat = none) :
    s.readWindow off = .error (.unwrittenRead off.toNat) := by
  simp only [State.readWindow, place_of_lt h, hb]

theorem State.readWindow_of_reserved (h : off.toNat = 0x1B ∨ 0x22 ≤ off.toNat) : s.readWindow off = .ok 0x00 := by
  simp only [State.readWindow, place_of_reserved h]

theorem State.writeWindow_of_lt (v : Byte) (h : off.toNat < 27) :
    s.writeWindow off v = .next (s.setByte off.toNat v) := by
  simp only [State.writeWindow, place_of_lt h]

theorem State.writeWindow_of_reserved (v : Byte) (h : off.toNat = 0x1B ∨ 0x22 ≤ off.toNat) :
    s.writeWindow off v = .next s := by
  simp only [State.writeWindow, place_of_reserved h]

/-- A write of CMD is the command of its byte (30_encoding.md R75). -/
theorem State.writeWindow_cmd (c : Byte) : s.writeWindow 0x1C c = s.runCommand c := rfl

/-- STATUS, RESULT_HI and RESULT_LO ignore a host write (20_memory.md R51). -/
theorem State.writeWindow_of_readOnly (v : Byte) (h : off = 0x1D ∨ off = 0x1E ∨ off = 0x1F) :
    s.writeWindow off v = .next s := by
  rcases h with rfl | rfl | rfl <;> rfl

end windowRules

/-- Settles O7: the reserved offsets by `place_of_reserved`, the three read-only ones by `writeWindow_of_readOnly`. -/
theorem reservedAndReadOnlyOffsets : Obligations.ReservedAndReadOnlyOffsets := by
  refine ⟨fun s off h => s.readWindow_of_reserved h, fun s off v h => ?_⟩
  have named {n : Offset} (hn : off.toNat = n.toNat) : off = n := BitVec.eq_of_toNat_eq hn
  rcases h with h | h | h | h | h
  · exact s.writeWindow_of_reserved v (.inl h)
  · exact s.writeWindow_of_readOnly v (.inl (named h))
  · exact s.writeWindow_of_readOnly v (.inr (.inl (named h)))
  · exact s.writeWindow_of_readOnly v (.inr (.inr (named h)))
  · exact s.writeWindow_of_reserved v (.inr h)

/-- RESULT_HI and RESULT_LO together are RESULT (10_state.md R26). -/
theorem half_append_halves (r : Half) : r.extractLsb' 8 8 ++ r.extractLsb' 0 8 = r := by
  have joined := BitVec.extractLsb'_append_extractLsb'_eq_extractLsb' (x := r) (len₂ := 8) (show 8 = 0 + 8 from rfl)
  exact joined.trans BitVec.extractLsb'_eq_self

/-- Settles O8: each register's offset is its own case of the window map, and the two halves of RESULT meet by
`half_append_halves`. -/
theorem hostReadsTheWindow : Obligations.HostReadsTheWindow := by
  intro s
  refine ⟨rfl, rfl, fun hi lo hhi hlo => ?_, ⟨_, rfl⟩, ⟨_, rfl⟩, rfl, rfl, fun off b => s.readWindow_of_written,
    fun off => s.readWindow_of_unwritten⟩
  cases hhi
  cases hlo
  exact half_append_halves s.result

/-- Settles O9: a write below 27 is `setByte`, which changes that byte of BUF alone. -/
theorem hostWritesOnlyStore : Obligations.HostWritesOnlyStore := by
  refine fun s v => ⟨fun off h => ⟨s.setByte off.toNat v, s.writeWindow_of_lt v h, ?_, fun j hj => ?_, rfl⟩, rfl, rfl⟩
  · rw [State.setByte_byte?, if_pos rfl]
  · rw [State.setByte_byte?, if_neg (by omega)]

end Sys2Proof.Machine
end

section
/-! One step on a line of the host's program: a read, a write and a comment (30_encoding.md R83). -/

namespace Sys2Proof.Machine

/-- What the host reads does not depend on where its program stands. -/
@[simp] theorem State.nextLine_readWindow (s : State) (off : Offset) :
    s.nextLine.readWindow off = s.readWindow off := rfl

theorem State.act_rd_of_ok {s : State} {off : Offset} {b : Byte} (h : s.readWindow off = .ok b) :
    s.act (.rd off) = .next (s.record off b) := by
  simp only [State.act, h]

theorem State.act_rd_of_error {s : State} {off : Offset} {r : Fault} (h : s.readWindow off = .error r) :
    s.act (.rd off) = .fault r := by
  simp only [State.act, h]

/-- Settles O10: the line is the read at the host's next position, whose value is recorded in the trace and whose fault
in the fault record. -/
theorem readStepsLeaveTheBlock : Obligations.ReadStepsLeaveTheBlock := by
  refine fun s off hf hline => ⟨fun b hread => ?_, fun r hread => ?_⟩
  · exact (step_of_line hf hline).trans (State.act_rd_of_ok ((s.nextLine_readWindow off).trans hread))
  · have hstep : step s = .fault r :=
      (step_of_line hf hline).trans (State.act_rd_of_error ((s.nextLine_readWindow off).trans hread))
    exact ⟨hstep, (stepRecorded_of_fault hstep).trans (State.recordFault_of_running hf r)⟩

/-- A byte that encodes no command signals ILLEGAL and does nothing else (44_control.md R202). -/
theorem State.runCommand_of_not_encoded (s : State) {c : Byte} (h : ∀ i, c ≠ encode i) :
    s.runCommand c = .next { s with cmd := c, status := 0x01, result := 0x0000 } := by
  cases hc : decode c with
  | ok i => exact absurd (encode_of_decode hc) (h i)
  | error err => simp only [State.runCommand, hc, State.signalIllegal, State.complete, statusIllegal_eq]

/-- Settles O57: the step is the line's access by `step_of_line`, and at CMD the access is the command of its byte. -/
theorem stepPerformsTheHostLine : Obligations.StepPerformsTheHostLine := by
  have atCmd (s : State) (c : Byte) (hf : s.faulted = none) (hline : s.program[s.line]? = some (.wr 0x1C c)) :
      step s = s.nextLine.runCommand c := (step_of_line hf hline).trans (s.nextLine.writeWindow_cmd c)
  refine ⟨fun s off v hf hline => step_of_line hf hline, atCmd, fun s c hf hline hc => ?_,
    fun s text hf hline => step_of_line hf hline⟩
  exact (atCmd s c hf hline).trans (s.nextLine.runCommand_of_not_encoded hc)

end Sys2Proof.Machine
end

section
/-! The CMD byte (30_encoding.md R70 to R74, R77): which bytes decode, and to which command. -/

namespace Sys2Proof.Machine

/-- Settles O1: the decoder's rows are the CMD values, and each CMD value has its row. -/
theorem decodeIsTheCommandTable : Obligations.DecodeIsTheCommandTable := fun _ i =>
  ⟨encode_of_decode, fun hc => hc ▸ decode_encode i⟩

theorem exists_decode_iff (c : Byte) : (∃ i, decode c = .ok i) ↔ (decode c).toOption.isSome = true := by
  cases decode c with
  | ok i => exact ⟨fun _ => rfl, fun _ => ⟨i, rfl⟩⟩
  | error err => exact ⟨fun ⟨_, h⟩ => (nomatch h), fun h => (nomatch h)⟩

/-- The legal bytes are the CMD values of the sixteen commands, and the opcode table lists them in rising order. -/
theorem filter_legal_eq :
    ((List.range 256).filter fun c => (decode (BitVec.ofNat 8 c)).toOption.isSome) =
      Instr.all.map fun i => (encode i).toNat := by decide +kernel

/-- Settles O2: the legal bytes are the values of `filter_legal_eq`, and the others make up the 256. -/
theorem sixteenLegalCommandBytes : Obligations.SixteenLegalCommandBytes := by
  have legal : ((List.range 256).countP fun c => (decode (BitVec.ofNat 8 c)).toOption.isSome) = 16 := by
    rw [List.countP_eq_length_filter, filter_legal_eq, List.length_map]
    rfl
  refine ⟨legal, ?_⟩
  have total := List.length_eq_countP_add_countP (l := List.range 256)
    fun c => (decode (BitVec.ofNat 8 c)).toOption.isSome
  simp only [legal, List.length_range, Bool.not_eq_true, Option.isSome_eq_false_iff, Bool.decide_eq_true] at total
  omega

/-- The decoder accepts a pair of fields exactly when the SUB is one the OP allows (30_encoding.md R71, R72). -/
theorem decode_isSome_eq_subAllowed :
    ∀ op sub : BitVec 4, (decode (op ++ sub)).toOption.isSome = subAllowed op sub := by decide +kernel

/-- 30_encoding.md R72 read along SUB: 0 goes with each OP of R71, 1 and 2 with the three that name a code or family. -/
theorem subAllowed_iff : ∀ op sub : BitVec 4, subAllowed op sub = true ↔
    (sub = 0 ∧ op.toNat ≤ 9) ∨ ((sub = 1 ∨ sub = 2) ∧ (op = 0x5 ∨ op = 0x6 ∨ op = 0x9)) := by decide +kernel

/-- Settles O3: a byte decodes exactly when `subAllowed` accepts its fields. -/
theorem legalExactlyWhenSubAllowed : Obligations.LegalExactlyWhenSubAllowed := fun op sub => by
  rw [exists_decode_iff, decode_isSome_eq_subAllowed, subAllowed_iff]

/-- Settles O4: each byte listed is the CMD value of the command beside it. -/
theorem writtenBytesDecode : Obligations.WrittenBytesDecode :=
  ⟨decode_encode .nop, decode_encode .g2087Dec, decode_encode .g24128Enc, decode_encode .rs362017Dec,
    decode_encode .rs24169Enc, decode_encode .interleave, decode_encode .dispatchTdulc⟩

/-- A write of a legal byte to CMD runs its command (30_encoding.md R75). -/
theorem State.runCommand_of_decode (s : State) {c : Byte} {i : Instr} (h : decode c = .ok i) :
    s.runCommand c = exec i { s with cmd := c } := by
  simp only [State.runCommand, h]

theorem State.runCommand_encode (s : State) (i : Instr) :
    s.runCommand (encode i) = exec i { s with cmd := encode i } := s.runCommand_of_decode (decode_encode i)

/-- Settles O5: the step is the line's write, which at CMD is the command of its byte. -/
theorem stepRunsTheWrittenCommand : Obligations.StepRunsTheWrittenCommand := fun s c i hf hline hi =>
  calc step s = s.nextLine.act (.wr 0x1C c) := step_of_line hf hline
    _ = s.nextLine.runCommand c := s.nextLine.writeWindow_cmd c
    _ = exec i { s with cmd := c, line := s.line + 1 } := s.nextLine.runCommand_of_decode hi

end Sys2Proof.Machine
end

section
/-! The host's program: what its pseudo-instructions stand for and in which order its lines run (30_encoding.md R84,
R85). -/

namespace Sys2Proof.Machine

/-- The k-th access of a `wrbuf` line writes its k-th byte, k places after the first. -/
theorem writeLines_getElem? (first : Nat) (bytes : List Byte) (k : Nat) :
    (writeLines first bytes)[k]? = bytes[k]?.map fun b => .wr (BitVec.ofNat 6 (first + k)) b := by
  induction bytes generalizing first k with
  | nil => rfl
  | cons b bs ih =>
    cases k with
    | zero => rfl
    | succ k =>
      rw [writeLines, List.getElem?_cons_succ, List.getElem?_cons_succ, ih, show first + 1 + k = first + (k + 1) by omega]

@[simp] theorem writeLines_length (first : Nat) (bytes : List Byte) : (writeLines first bytes).length = bytes.length := by
  induction bytes generalizing first with
  | nil => rfl
  | cons b bs ih => rw [writeLines, List.length_cons, List.length_cons, ih]

/-- Settles O17: the lines of fixed length as written in `expand`, `wrbuf` by induction on its bytes and `rdbuf` as a
map over its indices. -/
theorem pseudoInstructionsExpand : Obligations.PseudoInstructionsExpand := by
  refine ⟨fun i => rfl, rfl, rfl, fun n d => rfl, fun first bytes k b _ hb => ?_, writeLines_length,
    fun first count k _ hk => ?_, fun first count => ?_⟩
  · rw [expand, writeLines_getElem?, hb, Option.map_some]
  · rw [expand, List.getElem?_map, List.getElem?_range hk, Option.map_some, offsetOf]
  · rw [expand, List.length_map, List.length_range]

/-- No access of the host moves the host or changes its program: the commands do not (44_control.md R201), and a reset
does not (log entry 1). -/
theorem State.act_host {s t : State} {a : Action} (h : s.act a = .next t) :
    t.program = s.program ∧ t.line = s.line := by
  cases a with
  | wr off v =>
    obtain ⟨i, -, rfl⟩ | ⟨-, hrun⟩ | ⟨-, rfl⟩ | ⟨-, rfl⟩ | rfl := State.writeWindow_cases h
    case inr.inl =>
      obtain ⟨e, rfl, -, -⟩ := State.runCommand_effect hrun
      exact ⟨State.withEffect_program .., State.withEffect_line ..⟩
    all_goals exact ⟨rfl, rfl⟩
  | rd off =>
    cases hread : s.readWindow off with
    | ok b =>
      rw [State.act_rd_of_ok hread] at h
      cases h
      exact ⟨rfl, rfl⟩
    | error r =>
      rw [State.act_rd_of_error hread] at h
      cases h
  | comment text =>
    cases h
    exact ⟨rfl, rfl⟩
  | reset =>
    cases h
    exact ⟨rfl, rfl⟩

/-- Settles O15: the line's access takes place with the host at its next line, where `State.act_host` leaves it. -/
theorem programRunsInOrder : Obligations.ProgramRunsInOrder := by
  refine ⟨fun s t hline h => ?_, fun s hf hend => step_of_end hf (List.getElem?_eq_none hend)⟩
  obtain ⟨-, rfl⟩ | ⟨a, -, -, hact⟩ | ⟨hnone, -, -⟩ := step_cases h
  · exact ⟨rfl, rfl⟩
  · exact State.act_host hact
  · exact absurd (List.getElem?_eq_none_iff.mp hnone) (Nat.not_le.mpr hline)

end Sys2Proof.Machine
end

section
/-! A command's operand check and its "writes" column (30_encoding.md R76, R80; 44_control.md R201). -/

namespace Sys2Proof.Machine

/-- A command faults on the lowest operand byte that is unwritten (30_encoding.md R76). -/
theorem exec_of_unwritten {i : Instr} {s : State} {j : Nat} (hj : j < operandBytes i s) (hnone : s.byte? j = none)
    (hlow : ∀ k, k < j → s.byte? k ≠ none) : exec i s = .fault (.unwrittenRead j) := by
  have hread : s.readBytes (operandBytes i s) = .error j :=
    (State.readBytes_error_iff s _ j).mpr ⟨hj, hnone, fun k hk => Option.isSome_iff_ne_none.mpr (hlow k hk)⟩
  simp only [exec_eq, State.withOperands, hread]

theorem exec_of_written {i : Instr} {s : State} (h : ∀ j, j < operandBytes i s → s.byte? j ≠ none) :
    ∃ t, exec i s = .next t := by
  rw [exec_eq]
  obtain ⟨bs, -, -, hnext⟩ | ⟨j, hj, hnone, -, -⟩ := s.withOperands_cases (operandBytes i s) _
  · exact ⟨_, hnext⟩
  · exact absurd hnone (h j hj)

/-- Settles O19: the operand check by `exec_of_unwritten` and `exec_of_written`; in a step it is made with CMD written
and the host at its next line, which moves no operand. -/
theorem unwrittenOperandFaults : Obligations.UnwrittenOperandFaults := by
  refine ⟨fun i s j => exec_of_unwritten, fun i s j hf hline hj hnone hlow => ?_, fun i s => exec_of_written⟩
  have hcount : operandBytes i { s with cmd := encode i, line := s.line + 1 } = operandBytes i s :=
    (operands_congr fun _ => ⟨rfl, rfl⟩).1
  have hstep : step s = .fault (.unwrittenRead j) :=
    (stepRunsTheWrittenCommand s _ i hf hline (decode_encode i)).trans (exec_of_unwritten (hcount ▸ hj) hnone hlow)
  exact ⟨hstep, (stepRecorded_of_fault hstep).trans (State.recordFault_of_running hf _)⟩

section withEffectFrame

variable (s : State) (e : Effect)

@[simp] theorem State.withEffect_cmd : (s.withEffect e).cmd = s.cmd := State.setBytes_cmd ..

@[simp] theorem State.withEffect_ilvN : (s.withEffect e).ilvN = s.ilvN := State.setBytes_ilvN ..

@[simp] theorem State.withEffect_ilvD : (s.withEffect e).ilvD = s.ilvD := State.setBytes_ilvD ..

@[simp] theorem State.withEffect_trace : (s.withEffect e).trace = s.trace := State.setBytes_trace ..

end withEffectFrame

/-- An effect writes no bit outside its run of bytes. -/
theorem Effect.bit?_of_outside {e : Effect} {o : Nat} (h : o < 8 * e.first ∨ 8 * (e.first + e.bytes.length) ≤ o) :
    e.bit? o = none := if_neg (by omega)

/-- The effect leaves bit o as it is in the operand bytes: it writes none there, or the bit that was read there. -/
def Effect.KeepsBit (e : Effect) (bs : List Byte) (o : Nat) : Prop :=
  e.bit? o = none ∨ o < 8 * bs.length ∧ e.bit? o = some (bufBit bs o)

theorem Effect.KeepsBit.withEffect {s : State} {e : Effect} {bs : List Byte} {o : Nat} (h : e.KeepsBit bs o)
    (hbs : o < 8 * bs.length → s.bit? o = some (bufBit bs o)) : (s.withEffect e).bit? o = s.bit? o := by
  rw [State.withEffect_bit?]
  obtain hnone | ⟨ho, hsome⟩ := h
  · rw [hnone, Option.none_or]
  · rw [hsome, Option.some_or, hbs ho]

/-- An RS decoder writes the data symbols, which are whole bytes, or nothing (41_reed_solomon.md R161, R163). -/
theorem rsDecodeEffect_keepsBit {code : RsCode} {bs : List Byte} {o : Nat} (ho : 8 * (6 * code.k / 8) ≤ o) :
    (rsDecodeEffect code bs).KeepsBit bs o := by
  refine .inl (Effect.bit?_of_outside (.inr ?_))
  unfold rsDecodeEffect
  split
  · simpa only [bytesOf_length, Nat.zero_add] using ho
  · exact Nat.zero_le o

/-- An RS encoder writes the parity symbols, which are whole bytes (41_reed_solomon.md R148). -/
theorem rsEncodeEffect_keepsBit {code : RsCode} {bs : List Byte} {o : Nat}
    (ho : o < 8 * (6 * code.k / 8) ∨ 8 * (6 * code.k / 8 + 6 * code.r / 8) ≤ o) :
    (rsEncodeEffect code bs).KeepsBit bs o := by
  refine .inl (Effect.bit?_of_outside ?_)
  simpa only [rsEncodeEffect, bytesOf_length] using ho

/-- An interleave command rewrites the bits after the first N of its last byte as they were (42_interleave.md R183). -/
theorem interleaveEffect_keepsBit {source : (n d : Nat) → Nat → Nat} {n d : Nat} {bs : List Byte} {o : Nat}
    (hlen : ilvLegal n d = true → bs.length = (n + 7) / 8) (ho : ilvLegal n d = true → n ≤ o) :
    (interleaveEffect source n d bs).KeepsBit bs o := by
  unfold interleaveEffect
  split
  next hlegal =>
    have hlen := hlen hlegal
    have ho := ho hlegal
    by_cases hlast : o < 8 * ((n + 7) / 8)
    · refine .inr ⟨hlen ▸ hlast, ?_⟩
      rw [Effect.bit?_bytesOf _ _ (Nat.zero_le o) (by omega), permuteBits, if_neg (Nat.not_lt.mpr ho)]
    · refine .inl (Effect.bit?_of_outside (.inr ?_))
      simpa only [bytesOf_length, Nat.zero_add] using Nat.not_lt.mp hlast
  · exact .inl (Effect.bit?_of_outside (.inr (Nat.zero_le o)))

/-- G24128_ENC rewrites the high nibble of BUF[1], which it has read, as it was (40_golay.md R122). -/
theorem g24128EncEffect_keepsBit {n d : Nat} {bs : List Byte} {o : Nat} (hlen : bs.length = 2) (ho : o < 12 ∨ 24 ≤ o) :
    (commandEffect .g24128Enc n d bs).KeepsBit bs o := by
  by_cases hnibble : 8 ≤ o ∧ o < 12
  · refine .inr ⟨by omega, ?_⟩
    rw [commandEffect, Effect.bit?_bytesOf _ _ (by omega) (by omega), bufWrite_apply_outside _ _ (.inl hnibble.2)]
  · refine .inl (Effect.bit?_of_outside ?_)
    simp only [commandEffect, bytesOf_length]
    omega

/-- A command's effect keeps every bit outside its "writes" column (30_encoding.md R80). All but G24128_ENC and the
interleave commands write whole bytes of the column only. -/
theorem commandEffect_keepsBit (i : Instr) (s : State) {bs : List Byte} {o : Nat} (hlen : bs.length = operandBytes i s)
    (ho : o < (writtenBits i s).1 ∨ (writtenBits i s).2 ≤ o) :
    (commandEffect i s.ilvN.toNat s.ilvD.toNat bs).KeepsBit bs o := by
  cases i
  case nop | g2087Dec | g24128Dec | dispatchTsbk | dispatchTdulc | dispatchRcch =>
    exact .inl (Effect.bit?_of_outside (.inr (Nat.zero_le o)))
  case g2087Enc => exact .inl (Effect.bit?_of_outside ho)
  case g24128Enc => exact g24128EncEffect_keepsBit hlen ho
  case rs24121Dec | rs24169Dec | rs362017Dec =>
    exact rsDecodeEffect_keepsBit (ho.resolve_left (Nat.not_lt_zero o))
  case rs24121Enc | rs24169Enc | rs362017Enc => exact rsEncodeEffect_keepsBit ho
  case deinterleave | interleave =>
    have hcolumn := ho.resolve_left (Nat.not_lt_zero o)
    exact interleaveEffect_keepsBit (fun hl => hlen.trans (if_pos hl)) fun hl => (if_pos hl).symm.trans_le hcolumn

/-- Settles O20: a command's end is the effect of its operand bytes on the state with CMD written, so every other field
stays, its bits by `commandEffect_keepsBit`; that it forgets STATUS and RESULT is `State.runCommand_forgets`. -/
theorem commandWritesOnlyItsColumn : Obligations.CommandWritesOnlyItsColumn := by
  intro i s t h
  have forgets (st : Byte) (r : Half) : ({ s with status := st, result := r } : State).runCommand (encode i) = .next t :=
    (s.runCommand_forgets (encode i) s.cmd st r).trans h
  have hcolumn : writtenBits i { s with cmd := encode i } = writtenBits i s := by cases i <;> rfl
  rw [State.runCommand_encode] at h
  obtain ⟨bs, hlen, hbs, rfl⟩ := exec_next h
  refine ⟨State.withEffect_cmd .., State.withEffect_ilvN .., State.withEffect_ilvD .., State.withEffect_faulted ..,
    State.withEffect_program .., State.withEffect_line .., State.withEffect_trace .., fun o ho => ?_, forgets⟩
  exact (commandEffect_keepsBit i _ hlen (hcolumn ▸ ho)).withEffect (hlen ▸ hbs o)

end Sys2Proof.Machine
end

section
/-! The Golay syndrome: a linear map that fixes the check bits and whose kernel is the code (40_golay.md R102, R107). -/

namespace Sys2Proof.Machine

/-- A dividend without a bit from degree `deg` on is its own remainder. -/
theorem polyMod_of_low {w : Nat} {deg : Nat} (g : BitVec w) (n : Nat) {p : BitVec w}
    (h : ∀ i, deg ≤ i → p.getLsbD i = false) : polyMod deg g n p = p := by
  induction n with
  | zero => rfl
  | succ n ih => rw [polyMod, h _ (Nat.le_add_right deg n), if_neg Bool.false_ne_true, ih]

theorem syn_xor (p q : BitVec 23) : syn (p ^^^ q) = syn p ^^^ syn q := by
  simp only [syn, polyMod_xor, BitVec.setWidth_xor]

theorem syn_zero : syn 0 = 0 := by
  have h := syn_xor 0 0
  rwa [BitVec.xor_self, BitVec.xor_self] at h

theorem syn_setWidth (r : Syndrome) : syn (r.setWidth 23) = r := by
  have low : ∀ i, 11 ≤ i → (r.setWidth 23).getLsbD i = false := fun i hi => by
    rw [BitVec.getLsbD_setWidth, BitVec.getLsbD_of_ge r i hi, Bool.and_false]
  rw [syn, polyMod_of_low _ _ low, BitVec.setWidth_setWidth_of_le r (by decide), BitVec.setWidth_eq]

theorem syn_genpol_shift : ∀ k, k < 12 → syn (0xC75#23 <<< k) = 0 := by decide +kernel

/-- Settles O25: additivity is that of long division, and each of the twelve shifts divides to 0. -/
theorem syndromeIsTheRemainder : Obligations.SyndromeIsTheRemainder := ⟨syn_xor, syn_setWidth, syn_genpol_shift⟩

/-- The check bits enter the syndrome unchanged. -/
theorem syn_append (d : BitVec 12) (c : Syndrome) : syn (d ++ c) = syn (d.setWidth 23 <<< 11) ^^^ c := by
  have parts : d ++ c = (d.setWidth 23 <<< 11) ^^^ c.setWidth 23 := by
    refine BitVec.eq_of_getLsbD_eq fun i hi => ?_
    rw [BitVec.getLsbD_append, BitVec.getLsbD_xor, BitVec.getLsbD_shiftLeft, BitVec.getLsbD_setWidth,
      BitVec.getLsbD_setWidth]
    by_cases h : i < 11
    · simp [h, hi]
    · simp [h, hi, show i - 11 < 23 by omega, BitVec.getLsbD_of_ge c i (by omega)]
  rw [parts, syn_xor, syn_setWidth]

/-- A word has syndrome 0 exactly when its check bits are those of its information bits (40_golay.md R107). -/
theorem syn_append_eq_zero_iff (d : BitVec 12) (c : Syndrome) : syn (d ++ c) = 0 ↔ d ++ c = enc23 d := by
  rw [syn_append, enc23, BitVec.append_right_inj, eq_comm (a := c)]
  exact BitVec.xor_eq_zero_iff

theorem syn_enc23 (d : BitVec 12) : syn (enc23 d) = 0 := (syn_append_eq_zero_iff d _).mpr rfl

/-- Settles O26: a word is its twelve information bits beside its check bits. -/
theorem syndromeZeroExactlyOnCodewords : Obligations.SyndromeZeroExactlyOnCodewords := fun v => by
  have parts : v.extractLsb' 11 12 ++ v.extractLsb' 0 11 = v :=
    BitVec.extractLsb'_append_extractLsb'_eq_extractLsb' rfl |>.trans BitVec.extractLsb'_eq_self
  refine ⟨fun h => ⟨v.extractLsb' 11 12, ?_⟩, fun ⟨d, hd⟩ => hd ▸ syn_enc23 d⟩
  rw [← parts, syn_append_eq_zero_iff, parts] at h
  exact h

end Sys2Proof.Machine
end

section
/-! The document's division loop (40_golay.md R103): every subtraction takes a multiple of g away, so that the syndrome
stays and what is left below x^11 is the syndrome. -/

namespace Sys2Proof.Machine

/-- A value is below 2^n exactly when it has no bit from n on. -/
theorem toNat_lt_two_pow_iff {w : Nat} (v : BitVec w) (n : Nat) :
    v.toNat < 2 ^ n ↔ ∀ i, n ≤ i → v.getLsbD i = false :=
  ⟨fun h i hi => Nat.testBit_lt_two_pow (h.trans_le (Nat.pow_le_pow_right (by decide) hi)),
    Nat.lt_pow_two_of_testBit _⟩

/-- Below 2^(n+1), a clear bit n means below 2^n. -/
theorem toNat_lt_two_pow_of_bit {w n : Nat} {v : BitVec w} (h : v.toNat < 2 ^ (n + 1)) (hn : v.getLsbD n = false) :
    v.toNat < 2 ^ n := by
  rw [toNat_lt_two_pow_iff] at h ⊢
  intro i hi
  obtain rfl | hlt := Nat.eq_or_lt_of_le hi
  · exact hn
  · exact h i hlt

/-- The loop's outer test: no bit of degree 11 or more is left. -/
theorem and_highBits_eq_zero_iff (p : BitVec 32) : p &&& 0xFFFFF800 = 0 ↔ p.toNat < 2 ^ 11 := by
  have mask : ∀ i, i < 32 → (0xFFFFF800#32).getLsbD i = decide (11 ≤ i) := by decide
  rw [toNat_lt_two_pow_iff]
  refine ⟨fun h i hi => ?_, fun h => BitVec.eq_of_getLsbD_eq fun i hi => ?_⟩
  · by_cases hw : i < 32
    · have hbit := congrArg (fun v => BitVec.getLsbD v i) h
      simpa [mask i hw, hi] using hbit
    · exact BitVec.getLsbD_of_ge p i (by omega)
  · have hmask := mask i hi
    by_cases h11 : 11 ≤ i
    · simp [h i h11]
    · simp only [BitVec.ofNat_eq_ofNat, BitVec.getLsbD_and, hmask, h11, decide_false, Bool.and_false,
        BitVec.getLsbD_zero]

/-- g shifted to degree 11 + k. -/
def genpolAt (k : Nat) : BitVec 32 := Config.golayGenpol.setWidth 32 <<< k

/-- The multiple of g the loop subtracts at bit 11 + k. -/
theorem twoPow_div_mul_genpol :
    ∀ k, k < 12 → BitVec.twoPow 32 (11 + k) / 0x800 * Config.golayGenpol.setWidth 32 = genpolAt k := by decide

theorem genpolAt_leadingBit :
    ∀ k, k < 12 → (genpolAt k).toNat < 2 ^ (11 + k + 1) ∧ (genpolAt k).getLsbD (11 + k) = true := by decide

theorem genpolAt_setWidth : ∀ k, k < 12 → (genpolAt k).setWidth 23 = 0xC75#23 <<< k := by decide

/-- Subtracting at the leading bit clears it. -/
theorem xor_genpolAt_lt {p : BitVec 32} {k : Nat} (hk : k < 12) (hp : p.toNat < 2 ^ (11 + k + 1))
    (hbit : p.getLsbD (11 + k) = true) : (p ^^^ genpolAt k).toNat < 2 ^ (11 + k) := by
  obtain ⟨hg, hgbit⟩ := genpolAt_leadingBit k hk
  refine toNat_lt_two_pow_of_bit ?_ ?_
  · rw [BitVec.toNat_xor]
    exact Nat.xor_lt_two_pow hp hg
  · rw [BitVec.getLsbD_xor, hbit, hgbit, Bool.xor_self]

/-- Subtracting a multiple of g keeps the syndrome. -/
theorem syn_xor_genpolAt (p : BitVec 32) {k : Nat} (hk : k < 12) :
    syn ((p ^^^ genpolAt k).setWidth 23) = syn (p.setWidth 23) := by
  rw [BitVec.setWidth_xor, syn_xor, genpolAt_setWidth k hk, syn_genpol_shift k hk]
  exact BitVec.xor_zero

/-- Below x^11 a value is its own syndrome. -/
theorem syn_of_lt {p : BitVec 32} (h : p.toNat < 2 ^ 11) : (syn (p.setWidth 23)).setWidth 32 = p := by
  have low : p.setWidth 23 = (p.setWidth 11).setWidth 23 := by
    refine BitVec.eq_of_toNat_eq ?_
    simp only [BitVec.toNat_setWidth]
    omega
  rw [low, syn_setWidth]
  refine BitVec.eq_of_toNat_eq ?_
  simp only [BitVec.toNat_setWidth]
  omega

theorem syndromeLoop_of_lt (fuel : Nat) (aux : BitVec 32) {p : BitVec 32} (h : p.toNat < 2 ^ 11) :
    syndromeLoop fuel aux p = p := by
  cases fuel with
  | zero => rfl
  | succ fuel => rw [syndromeLoop, if_pos ((and_highBits_eq_zero_iff p).mpr h)]

/-- The inner loop moves on at a clear bit. -/
theorem syndromeLoop_of_clear {fuel k : Nat} (hk : k + 1 < 12) {p : BitVec 32} (h : ¬ p.toNat < 2 ^ 11)
    (hbit : p.getLsbD (11 + (k + 1)) = false) :
    syndromeLoop (fuel + 1) (BitVec.twoPow 32 (11 + (k + 1))) p = syndromeLoop fuel (BitVec.twoPow 32 (11 + k)) p := by
  have hshift : ∀ k, k < 11 → BitVec.twoPow 32 (11 + (k + 1)) >>> 1 = BitVec.twoPow 32 (11 + k) := by decide
  have hclear : BitVec.twoPow 32 (11 + (k + 1)) &&& p = 0 := by simp [BitVec.twoPow_and, hbit]
  rw [syndromeLoop, if_neg (mt (and_highBits_eq_zero_iff p).mp h), if_pos hclear, hshift k (by omega)]

/-- The outer loop subtracts at a bit that is set. -/
theorem syndromeLoop_of_set {fuel k : Nat} (hk : k < 12) {p : BitVec 32} (hbit : p.getLsbD (11 + k) = true) :
    syndromeLoop (fuel + 1) (BitVec.twoPow 32 (11 + k)) p =
      syndromeLoop fuel (BitVec.twoPow 32 (11 + k)) (p ^^^ genpolAt k) := by
  have hne : ∀ k, k < 12 → BitVec.twoPow 32 (11 + k) ≠ 0 := by decide
  have hhigh : ¬ p.toNat < 2 ^ 11 := fun h => by
    rw [(toNat_lt_two_pow_iff p 11).mp h _ (Nat.le_add_right 11 k)] at hbit
    cases hbit
  have hset : BitVec.twoPow 32 (11 + k) &&& p ≠ 0 := by
    rw [BitVec.twoPow_and, if_pos hbit]
    exact hne k hk
  rw [syndromeLoop, if_neg (mt (and_highBits_eq_zero_iff p).mp hhigh), if_neg hset, twoPow_div_mul_genpol k hk]

/-- Standing at bit 11 + k with `steps` of fuel, the loop leaves the syndrome of every pattern below 2^n. -/
def LoopDivides (k n steps : Nat) : Prop :=
  ∀ fuel (p : BitVec 32), steps ≤ fuel → p.toNat < 2 ^ n →
    syndromeLoop fuel (BitVec.twoPow 32 (11 + k)) p = (syn (p.setWidth 23)).setWidth 32

/-- One subtraction at most brings a pattern below the bit the loop stands at. -/
theorem LoopDivides.leadingBit {k steps : Nat} (hk : k < 12) (h : LoopDivides k (11 + k) steps) :
    LoopDivides k (11 + k + 1) (steps + 1) := by
  intro fuel p hfuel hp
  obtain ⟨fuel, rfl⟩ : ∃ f, fuel = f + 1 := ⟨fuel - 1, by omega⟩
  cases hbit : p.getLsbD (11 + k) with
  | true =>
    rw [syndromeLoop_of_set hk hbit, h _ _ (by omega) (xor_genpolAt_lt hk hp hbit), syn_xor_genpolAt p hk]
  | false => exact h _ p (by omega) (toNat_lt_two_pow_of_bit hp hbit)

/-- One shift brings the loop to the next bit, unless the pattern is its own syndrome already. -/
theorem LoopDivides.nextBit {k steps : Nat} (hk : k + 1 < 12) (h : LoopDivides k (11 + k + 1) steps) :
    LoopDivides (k + 1) (11 + (k + 1)) (steps + 1) := by
  intro fuel p hfuel hp
  obtain ⟨fuel, rfl⟩ : ∃ f, fuel = f + 1 := ⟨fuel - 1, by omega⟩
  by_cases hlow : p.toNat < 2 ^ 11
  · rw [syndromeLoop_of_lt _ _ hlow, syn_of_lt hlow]
  · rw [syndromeLoop_of_clear hk hlow ((toNat_lt_two_pow_iff p _).mp hp _ le_rfl), h _ p (by omega) hp]

theorem loopDivides (k : Nat) (hk : k < 12) : LoopDivides k (11 + k) (2 * k) := by
  induction k with
  | zero => exact fun fuel p _ hp => by rw [syndromeLoop_of_lt _ _ hp, syn_of_lt hp]
  | succ k ih => exact ((ih (by omega)).leadingBit (by omega)).nextBit hk

theorem getSyndrome_twoPow {k : Nat} (hk : k < 12) {p : BitVec 32} (hp : p.toNat < 2 ^ (11 + k + 1)) :
    getSyndrome p (BitVec.twoPow 32 (11 + k)) = (syn (p.setWidth 23)).setWidth 32 := by
  unfold getSyndrome
  split
  · exact (loopDivides k hk).leadingBit hk 64 p (by omega) hp
  next h => exact (syn_of_lt (Nat.not_le.mp h)).symm

/-- Settles O27: the two starting bits are those of k = 11 and k = 7. -/
theorem getSyndromeIsSyn : Obligations.GetSyndromeIsSyn := by
  rintro p top (rfl | rfl) hp
  · exact getSyndrome_twoPow (k := 11) (by decide) hp
  · exact getSyndrome_twoPow (k := 7) (by decide) hp

end Sys2Proof.Machine
end

section
/-! The number of 1 bits, as the size of the set of their positions (00_scope.md R9). -/

namespace Sys2Proof.Machine

/-- The positions of the 1 bits. -/
def onesOf {w : Nat} (v : BitVec w) : Finset Nat := (Finset.range w).filter fun i => v.getLsbD i = true

theorem mem_onesOf {w : Nat} {v : BitVec w} {i : Nat} : i ∈ onesOf v ↔ v.getLsbD i = true := by
  simpa [onesOf] using BitVec.lt_of_getLsbD

theorem card_onesOf {w : Nat} (v : BitVec w) : (onesOf v).card = popcount v := by
  rw [popcount, List.countP_eq_length_filter, onesOf, Finset.card, Finset.filter_val, Finset.range_val, Multiset.range,
    Multiset.filter_coe, Multiset.coe_card]
  simp only [Bool.decide_eq_true]

theorem onesOf_injective {w : Nat} : Function.Injective (onesOf (w := w)) := fun u v h =>
  BitVec.eq_of_getLsbD_eq fun i _ => by
    rw [Bool.eq_iff_iff, ← mem_onesOf, ← mem_onesOf, h]

theorem onesOf_zero (w : Nat) : onesOf (0 : BitVec w) = ∅ := by
  ext i
  simp [mem_onesOf]

theorem popcount_eq_zero_iff {w : Nat} {v : BitVec w} : popcount v = 0 ↔ v = 0 := by
  rw [← card_onesOf, Finset.card_eq_zero, ← onesOf_zero w, onesOf_injective.eq_iff]

theorem popcount_zero (w : Nat) : popcount (0 : BitVec w) = 0 := popcount_eq_zero_iff.mpr rfl

theorem popcount_xor_le {w : Nat} (u v : BitVec w) : popcount (u ^^^ v) ≤ popcount u + popcount v := by
  have hsub : onesOf (u ^^^ v) ⊆ onesOf u ∪ onesOf v := fun i hi => by
    rw [mem_onesOf, BitVec.getLsbD_xor] at hi
    rw [Finset.mem_union, mem_onesOf, mem_onesOf]
    cases hu : u.getLsbD i with
    | true => exact .inl rfl
    | false => exact .inr (by rwa [hu, Bool.false_xor] at hi)
  simp only [← card_onesOf]
  exact (Finset.card_le_card hsub).trans (Finset.card_union_le _ _)

theorem getLsbD_oneBit (w i j : Nat) : (oneBit w i).getLsbD j = (decide (i < w) && decide (i = j)) := by
  rw [oneBit, ← BitVec.twoPow_eq, BitVec.getLsbD_twoPow]

theorem popcount_oneBit_le (w i : Nat) : popcount (oneBit w i) ≤ 1 := by
  have hsub : onesOf (oneBit w i) ⊆ {i} := fun j hj => by
    rw [mem_onesOf, getLsbD_oneBit, Bool.and_eq_true, decide_eq_true_iff, decide_eq_true_iff] at hj
    exact Finset.mem_singleton.mpr hj.2.symm
  rw [← card_onesOf]
  exact Finset.card_le_card hsub

/-- Clearing a bit that is set takes one off the count. -/
theorem popcount_clear {w i : Nat} {v : BitVec w} (h : v.getLsbD i = true) :
    popcount (v ^^^ oneBit w i) + 1 = popcount v := by
  have herase : onesOf (v ^^^ oneBit w i) = (onesOf v).erase i := by
    ext j
    rw [Finset.mem_erase, mem_onesOf, mem_onesOf, BitVec.getLsbD_xor, getLsbD_oneBit]
    by_cases hj : i = j
    · subst hj
      simp [h, BitVec.lt_of_getLsbD h]
    · simp [hj, Ne.symm hj]
  rw [← card_onesOf, herase, ← card_onesOf, Finset.card_erase_add_one (mem_onesOf.mpr h)]

theorem popcount_setWidth {w w' : Nat} (hw : w ≤ w') (v : BitVec w) : popcount (v.setWidth w') = popcount v := by
  have hones : onesOf (v.setWidth w') = onesOf v := by
    ext i
    rw [mem_onesOf, mem_onesOf, BitVec.getLsbD_setWidth]
    simpa using fun h => (BitVec.lt_of_getLsbD h).trans_le hw
  rw [← card_onesOf, hones, card_onesOf]

/-- A field has no more ones than the word it is taken from. -/
theorem popcount_extractLsb'_le {w : Nat} (v : BitVec w) (start len : Nat) :
    popcount (v.extractLsb' start len) ≤ popcount v := by
  simp only [← card_onesOf]
  refine Finset.card_le_card_of_injOn (start + ·) (fun i hi => ?_) fun i _ j _ h => Nat.add_left_cancel h
  rw [Finset.mem_coe, mem_onesOf, BitVec.getLsbD_extractLsb', Bool.and_eq_true] at hi
  exact Finset.mem_coe.mpr (mem_onesOf.mpr hi.2)

theorem popcount_append {w w' : Nat} (u : BitVec w) (v : BitVec w') : popcount (u ++ v) = popcount u + popcount v := by
  have hsplit : List.range (w + w') = List.range w' ++ (List.range w).map (w' + ·) := by
    rw [Nat.add_comm, List.range_add]
  rw [popcount, hsplit, List.countP_append, List.countP_map, Nat.add_comm (popcount u)]
  congr 1
  · refine List.countP_congr fun i hi => ?_
    rw [BitVec.getLsbD_append, if_pos (List.mem_range.mp hi)]
  · refine List.countP_congr fun i _ => ?_
    simp [BitVec.getLsbD_append]

/-- A word with its parity bit behind it has an even number of ones. -/
theorem popcount_append_parity_even {w : Nat} (v : BitVec w) : popcount (v ++ parity v) % 2 = 0 := by
  have hbit : ∀ b : BitVec 1, popcount b = b.toNat := by decide
  rw [popcount_append, hbit, parity, BitVec.toNat_ofNat]
  omega

/-- A word of at most m + n ones is the sum of one of at most m and one of at most n. -/
theorem exists_xor_of_popcount_le {w m n : Nat} {v : BitVec w} (h : popcount v ≤ m + n) :
    ∃ x y, v = x ^^^ y ∧ popcount x ≤ m ∧ popcount y ≤ n := by
  induction m generalizing v with
  | zero => exact ⟨0, v, BitVec.zero_xor.symm, (popcount_zero w).le, by omega⟩
  | succ m ih =>
    by_cases hv : v = 0
    · exact ⟨v, 0, BitVec.xor_zero.symm, by rw [hv, popcount_zero]; omega, by rw [popcount_zero]; omega⟩
    · obtain ⟨i, hi⟩ : (onesOf v).Nonempty := by
        rw [← Finset.card_pos, card_onesOf]
        exact Nat.pos_of_ne_zero (mt popcount_eq_zero_iff.mp hv)
      have hclear := popcount_clear (mem_onesOf.mp hi)
      obtain ⟨x, y, hxy, hx, hy⟩ := ih (v := v ^^^ oneBit w i) (by omega)
      refine ⟨x ^^^ oneBit w i, y, ?_, ?_, hy⟩
      · rw [BitVec.xor_assoc, BitVec.xor_comm (oneBit w i), ← BitVec.xor_assoc, ← hxy, BitVec.xor_assoc,
          BitVec.xor_self, BitVec.xor_zero]
      · have := popcount_xor_le x (oneBit w i)
        have := popcount_oneBit_le w i
        omega

end Sys2Proof.Machine
end

section
/-! Golay(23,12) is perfect: every syndrome has a pattern of at most three ones, since the search that defines the
decode table never fails, and by counting it has no other (40_golay.md R104, R105, R106). -/

namespace Sys2Proof.Machine

section findLight

variable (ones bits : Nat) (s : Syndrome)

theorem findLight_zero_bits : findLight ones 0 s = if s = 0 then some 0 else none := by
  rw [findLight]

theorem findLight_zero_ones : findLight 0 bits s = if s = 0 then some 0 else none := by
  cases bits with
  | zero => rw [findLight]
  | succ bits => rw [findLight]

theorem findLight_succ : findLight (ones + 1) (bits + 1) s = (findLight (ones + 1) bits s).or
    ((findLight ones bits (s ^^^ syn (oneBit 23 bits))).map fun e => e ^^^ oneBit 23 bits) := by
  rw [findLight]
  cases findLight (ones + 1) bits s with
  | none => rfl
  | some e => rfl

end findLight

/-- The search finds a pattern of the syndrome asked for, with no more ones than allowed. -/
theorem findLight_spec {ones bits : Nat} {s : Syndrome} {e : BitVec 23} (h : findLight ones bits s = some e) :
    popcount e ≤ ones ∧ syn e = s := by
  have noBit {n : Nat} {s : Syndrome} {e : BitVec 23} (h : (if s = 0 then some 0 else none) = some e) :
      popcount e ≤ n ∧ syn e = s := by
    split at h
    next hs =>
      cases h
      exact ⟨(popcount_zero 23).trans_le (Nat.zero_le n), syn_zero.trans hs.symm⟩
    · cases h
  induction bits generalizing ones s e with
  | zero => exact noBit (findLight_zero_bits ones s ▸ h)
  | succ bits ih =>
    cases ones with
    | zero => exact noBit (findLight_zero_ones (bits + 1) s ▸ h)
    | succ ones =>
      rw [findLight_succ, Option.or_eq_some_iff, Option.map_eq_some_iff] at h
      obtain h | ⟨-, e, h, rfl⟩ := h
      · exact ih h
      · obtain ⟨hones, hsyn⟩ := ih h
        refine ⟨(popcount_xor_le ..).trans (Nat.add_le_add hones (popcount_oneBit_le ..)), ?_⟩
        rw [syn_xor, hsyn, BitVec.xor_assoc, BitVec.xor_self]
        exact BitVec.xor_zero

/-- The bitmap of the syndromes s ^^^ syn e, for the patterns e that `findLight ones bits` searches. -/
def lightSyndromes : (ones bits : Nat) → Syndrome → Nat
  | _, 0, s => 1 <<< s.toNat
  | 0, _ + 1, s => 1 <<< s.toNat
  | ones + 1, bits + 1, s =>
    lightSyndromes (ones + 1) bits s ||| lightSyndromes ones bits (s ^^^ syn (oneBit 23 bits))

/-- Where the bitmap is set, the search does not fail. -/
theorem findLight_isSome {ones bits : Nat} {s t : Syndrome}
    (h : (lightSyndromes ones bits s).testBit t.toNat = true) : (findLight ones bits (s ^^^ t)).isSome := by
  have noBit {s t : Syndrome} (h : (1 <<< s.toNat).testBit t.toNat = true) :
      (if s ^^^ t = 0 then some (0 : BitVec 23) else none).isSome := by
    rw [Nat.one_shiftLeft, Nat.testBit_two_pow, decide_eq_true_iff] at h
    have hsum : s ^^^ t = 0 := BitVec.xor_eq_zero_iff.mpr (BitVec.eq_of_toNat_eq h)
    rw [if_pos hsum]
    rfl
  induction bits generalizing ones s with
  | zero =>
    rw [lightSyndromes] at h
    exact findLight_zero_bits ones _ ▸ noBit h
  | succ bits ih =>
    cases ones with
    | zero =>
      rw [lightSyndromes] at h
      exact findLight_zero_ones (bits + 1) _ ▸ noBit h
    | succ ones =>
      rw [lightSyndromes, Nat.testBit_or, Bool.or_eq_true] at h
      rw [findLight_succ, Option.isSome_or, Option.isSome_map, Bool.or_eq_true]
      refine h.imp ih fun h => ?_
      rw [BitVec.xor_assoc, BitVec.xor_comm t, ← BitVec.xor_assoc]
      exact ih h

/-- 40_golay.md R104: the sums of at most three columns are all the 2048 syndromes. -/
theorem lightSyndromes_three : lightSyndromes 3 23 0 = 2 ^ 2048 - 1 := by decide +kernel

theorem findLight_three_isSome (s : Syndrome) : (findLight 3 23 s).isSome := by
  have hmap : (lightSyndromes 3 23 0).testBit s.toNat = true := by
    rw [lightSyndromes_three, Nat.testBit_two_pow_sub_one]
    exact decide_eq_true s.isLt
  exact BitVec.zero_xor (x := s) ▸ findLight_isSome hmap

theorem findLight_golay23Dec (s : Syndrome) : findLight 3 23 s = some (golay23Dec s) := by
  obtain ⟨e, he⟩ := Option.isSome_iff_exists.mp (findLight_three_isSome s)
  rw [golay23Dec, he, Option.getD_some]

theorem popcount_golay23Dec_le (s : Syndrome) : popcount (golay23Dec s) ≤ 3 :=
  (findLight_spec (findLight_golay23Dec s)).1

theorem syn_golay23Dec (s : Syndrome) : syn (golay23Dec s) = s := (findLight_spec (findLight_golay23Dec s)).2

/-- The sets of at most three of the 23 positions. -/
def lightSets : Finset (Finset Nat) := (Finset.range 4).biUnion fun k => Finset.powersetCard k (Finset.range 23)

theorem card_lightSets_le : lightSets.card ≤ 2 ^ 11 :=
  calc lightSets.card
      ≤ ∑ k ∈ Finset.range 4, (Finset.powersetCard k (Finset.range 23)).card := Finset.card_biUnion_le
    _ = ∑ k ∈ Finset.range 4, Nat.choose 23 k := by simp only [Finset.card_powersetCard, Finset.card_range]
    _ = 2 ^ 11 := by decide

theorem onesOf_mem_lightSets {e : BitVec 23} (h : popcount e ≤ 3) : onesOf e ∈ lightSets := by
  rw [lightSets, Finset.mem_biUnion]
  exact ⟨popcount e, Finset.mem_range.mpr (by omega),
    Finset.mem_powersetCard.mpr ⟨Finset.filter_subset _ _, card_onesOf e⟩⟩

/-- No two light patterns share a syndrome (40_golay.md R104): the table's 2048 entries are different light patterns,
and there are no more. -/
theorem golay23Dec_syn {e : BitVec 23} (h : popcount e ≤ 3) : golay23Dec (syn e) = e := by
  have inj : Function.Injective fun s => onesOf (golay23Dec s) := fun s t hst => by
    rw [← syn_golay23Dec s, onesOf_injective hst, syn_golay23Dec]
  have hcard : lightSets.card ≤ (Finset.univ : Finset Syndrome).card := by
    rw [Finset.card_univ, ← FinEnum.card_eq_fintypeCard]
    exact card_lightSets_le
  have hmaps : Set.MapsTo (fun s => onesOf (golay23Dec s)) (Finset.univ : Finset Syndrome) lightSets :=
    fun s _ => onesOf_mem_lightSets (popcount_golay23Dec_le s)
  obtain ⟨s, -, hs⟩ := Finset.surjOn_of_injOn_of_card_le _ hmaps inj.injOn hcard (onesOf_mem_lightSets h)
  rw [← onesOf_injective hs, syn_golay23Dec]

/-- Settles O28: `golay23Dec` holds the one light pattern of each syndrome. -/
theorem golayCodeIsPerfect : Obligations.GolayCodeIsPerfect := by
  refine ⟨fun s => ⟨golay23Dec s, ⟨popcount_golay23Dec_le s, syn_golay23Dec s⟩, ?_⟩, by decide⟩
  rintro e ⟨hones, rfl⟩
  exact (golay23Dec_syn hones).symm

theorem golay19Dec_of_lt {s : Syndrome} (h : (golay23Dec s).toNat < 2 ^ 19) :
    (golay19Dec s).setWidth 23 = golay23Dec s := by
  rw [golay19Dec, if_pos h]
  refine BitVec.eq_of_toNat_eq ?_
  simp only [BitVec.toNat_setWidth]
  omega

theorem golay23Dec_setWidth {e : BitVec 19} (h : popcount e ≤ 3) : golay23Dec (syn (e.setWidth 23)) = e.setWidth 23 :=
  golay23Dec_syn ((popcount_setWidth (by decide) e).trans_le h)

/-- A light pattern within the 19 bits is its syndrome's entry (40_golay.md R106). -/
theorem golay19Dec_syn {e : BitVec 19} (h : popcount e ≤ 3) : golay19Dec (syn (e.setWidth 23)) = e := by
  have hlt : (e.setWidth 23).toNat < 2 ^ 19 := toNat_setWidth_lt e 23
  rw [golay19Dec, golay23Dec_setWidth h, if_pos hlt, BitVec.setWidth_setWidth_of_le e (by decide), BitVec.setWidth_eq]

theorem golay19Dec_spec (s : Syndrome) :
    (syn ((golay19Dec s).setWidth 23) = s ∧ popcount (golay19Dec s) ≤ 3 ∧
      (golay19Dec s).setWidth 23 = golay23Dec s) ∨
    (golay19Dec s = 0 ∧ ∀ e : BitVec 19, popcount e ≤ 3 → syn (e.setWidth 23) ≠ s) := by
  by_cases hlt : (golay23Dec s).toNat < 2 ^ 19
  · have hwide := golay19Dec_of_lt hlt
    refine .inl ⟨by rw [hwide, syn_golay23Dec], ?_, hwide⟩
    rw [← popcount_setWidth (w' := 23) (by decide), hwide]
    exact popcount_golay23Dec_le s
  · refine .inr ⟨if_neg hlt, ?_⟩
    rintro e hones rfl
    rw [golay23Dec_setWidth hones] at hlt
    exact hlt (toNat_setWidth_lt e 23)

/-- The table's entry has the fewest ones of its syndrome: another pattern has more than three. -/
theorem popcount_golay23Dec_le_of_syn {s : Syndrome} {e : BitVec 23} (h : syn e = s) :
    popcount (golay23Dec s) ≤ popcount e := by
  by_cases hones : popcount e ≤ 3
  · rw [← h, golay23Dec_syn hones]
  · exact (popcount_golay23Dec_le s).trans (Nat.le_of_not_le hones)

theorem golay23Dec_zero : golay23Dec 0 = 0 := by
  rw [← syn_zero]
  exact golay23Dec_syn ((popcount_zero 23).trans_le (Nat.zero_le 3))

/-- Settles O29: the 23-bit table by its light patterns, the 19-bit one by `golay19Dec_spec`. -/
theorem decodeTablesHoldLeastPatterns : Obligations.DecodeTablesHoldLeastPatterns :=
  ⟨fun s => ⟨syn_golay23Dec s, popcount_golay23Dec_le s, fun _ => popcount_golay23Dec_le_of_syn⟩, golay23Dec_zero,
    golay19Dec_spec⟩

end Sys2Proof.Machine
end

section
/-! The Golay decoders: the 24 bits of a received word, and the least pattern they take away (40_golay.md R109 to R113,
R117 to R119). -/

namespace Sys2Proof.Machine

/-- Settles O30: the pattern is the entry of `golay19Dec`, which `golay19Dec_spec` describes. -/
theorem g2087DecodesTheReceivedWord : Obligations.G2087DecodesTheReceivedWord := fun _ b h => by
  refine ⟨golay19Dec (syn ((fieldOf b 0 19).setWidth 23)), ?_, execG2087Dec_of_holds h⟩
  exact (golay19Dec_spec _).imp_left fun ⟨hsyn, hones, _⟩ => ⟨hones, hsyn⟩

/-- Settles O31: the pattern is the entry of `golay23Dec`. -/
theorem g24128DecodesTheReceivedWord : Obligations.G24128DecodesTheReceivedWord := fun _ _ h =>
  ⟨_, popcount_golay23Dec_le _, syn_golay23Dec _, execG24128Dec_of_holds h⟩

theorem bitOf_bytesOfWord (w : BitVec 24) {o : Nat} (ho : o < 24) : bitOf (bytesOfWord w) o = w.getMsbD o := by
  rw [bitOf, bytesOfWord, BitVec.getMsbD_extractLsb', decide_eq_true (Nat.mod_lt o (by decide)),
    decide_eq_true (by omega), Bool.true_and, Bool.true_and]
  congr 1
  omega

/-- The leading bits of a 24-bit word in BUF. -/
theorem fieldOf_bytesOfWord (w : BitVec 24) {n : Nat} (hn : n ≤ 24) :
    fieldOf (bytesOfWord w) 0 n = w.extractLsb' (24 - n) n := by
  refine BitVec.eq_of_getMsbD_eq fun k hk => ?_
  rw [fieldOf, getMsbD_readBits, Nat.zero_add, bitOf_bytesOfWord w (by omega), BitVec.getMsbD_extractLsb',
    decide_eq_true (show 24 - n + n - k ≤ 24 by omega), Bool.true_and, show 24 - (24 - n + n - k) = k by omega]

/-- The first 19 bits of a Golay(20,8,7) codeword: the byte and its eleven check bits. -/
theorem append_chk12 (d : BitVec 8) : d ++ chk12 d = (d ++ c11 d) ++ parity (d ++ c11 d) :=
  BitVec.append_assoc'.trans (BitVec.cast_eq _ _)

/-- The shortened code: four information bits of the Golay(23,12) codeword are 0 (40_golay.md R114). -/
theorem setWidth_append_c11 (d : BitVec 8) : (d ++ c11 d).setWidth 23 = enc23 (d.setWidth 12) := by
  rw [BitVec.setWidth_append, dif_neg (by decide), enc23, BitVec.setWidth_setWidth (by decide), c11]
  rfl

/-- A light pattern on top of a codeword is taken away. -/
theorem golay2087Info_of_light (d : BitVec 8) {e : BitVec 19} (h : popcount e ≤ 3) :
    golay2087Info ((d ++ c11 d) ^^^ e) = d := by
  have hsyn : syn (((d ++ c11 d) ^^^ e).setWidth 23) = syn (e.setWidth 23) := by
    rw [BitVec.setWidth_xor, syn_xor, setWidth_append_c11, syn_enc23]
    exact BitVec.zero_xor
  rw [golay2087Info, hsyn, golay19Dec_syn h, BitVec.xor_assoc, BitVec.xor_self, BitVec.xor_zero,
    BitVec.extractLsb'_append_eq_left]

/-- A light pattern on top of a codeword is taken away. -/
theorem golay24128Info_of_light (d : BitVec 12) {e : BitVec 23} (h : popcount e ≤ 3) :
    golay24128Info (enc23 d ^^^ e) = d := by
  have hsyn : syn (enc23 d ^^^ e) = syn e := by
    rw [syn_xor, syn_enc23]
    exact BitVec.zero_xor
  rw [golay24128Info, hsyn, golay23Dec_syn h, BitVec.xor_assoc, BitVec.xor_self, BitVec.xor_zero, enc23,
    BitVec.extractLsb'_append_eq_left]

/-- Settles O32: of the 24 bits the decoder reads the first 19, a codeword of the shortened code and a light pattern. -/
theorem g2087CorrectsThreeErrors : Obligations.G2087CorrectsThreeErrors := fun s d low e he h => by
  have hfield : fieldOf (bytesOfWord (((d ++ chk12 d) ++ low) ^^^ e)) 0 19 = (d ++ c11 d) ^^^ e.extractLsb' 5 19 := by
    rw [fieldOf_bytesOfWord _ (by decide), BitVec.extractLsb'_xor, append_chk12, BitVec.append_assoc, BitVec.cast_eq]
    exact congrArg (· ^^^ e.extractLsb' 5 19) BitVec.extractLsb'_append_eq_left
  refine (execG2087Dec_of_holds h).trans ?_
  rw [hfield, golay2087Info_of_light d he]
  rfl

/-- Settles O33: of the 24 bits the decoder reads the first 23, a codeword and the pattern without its last bit. -/
theorem g24128CorrectsThreeErrors : Obligations.G24128CorrectsThreeErrors := fun s d e he h => by
  have hfield : fieldOf (bytesOfWord (cw24 d ^^^ e)) 0 23 = enc23 d ^^^ e.extractLsb' 1 23 := by
    rw [fieldOf_bytesOfWord _ (by decide), BitVec.extractLsb'_xor, cw24, BitVec.extractLsb'_append_eq_left]
  refine (execG24128Dec_of_holds h).trans ?_
  rw [hfield, golay24128Info_of_light d ((popcount_extractLsb'_le e 1 23).trans he)]
  rfl

end Sys2Proof.Machine
end

section
/-! The Golay encoders (40_golay.md R107 to R109, R114, R116, R122) and the round trip (R123). -/

namespace Sys2Proof.Machine

/-- Bytes whose bits are all a function's bits are the function's bytes. -/
theorem State.holds_of_bit? {s : State} {n : Nat} {b : Nat → Byte}
    (h : ∀ o, o < 8 * n → s.bit? o = some (bitOf b o)) : s.Holds n b := by
  intro j hj
  have bit (k : Nat) (hk : k < 8) : (s.byte? j).map (fun v => v.getMsbD k) = some ((b j).getMsbD k) := by
    have := h (8 * j + k) (by omega)
    rwa [State.bit?, bitOf, show (8 * j + k) / 8 = j by omega, show (8 * j + k) % 8 = k by omega] at this
  obtain ⟨v, hv, -⟩ := Option.map_eq_some_iff.mp (bit 0 (by decide))
  rw [hv]
  refine congrArg some (BitVec.eq_of_getMsbD_eq fun k hk => ?_)
  have := bit k hk
  rw [hv] at this
  exact Option.some.inj this

theorem State.setBytes_endsWith (s : State) (i : Nat) (bs : List Byte) (st : Byte) (r : Half) :
    EndsWith s ((s.setBytes i bs).complete st r) st r := by
  induction bs generalizing s i with
  | nil => rfl
  | cons b bs ih => exact ih (s.setByte i b) (i + 1)

theorem State.setBytes_sameBytesOutside (s : State) (i : Nat) (bs : List Byte) (st : Byte) (r : Half) :
    SameBytesOutside s ((s.setBytes i bs).complete st r) i (i + bs.length) := fun j hj => by
  rw [State.complete_byte?, State.setBytes_byte?, if_neg (by omega)]

theorem fieldOf_byte (b : Nat → Byte) : fieldOf b 0 8 = b 0 := by
  refine (readBits_congr (bit' := (b 0).getMsbD) (o' := 0) fun k hk => ?_).trans (readBits_getMsbD (b 0))
  rw [Nat.zero_add, bitOf, Nat.div_eq_of_lt hk, Nat.mod_eq_of_lt hk]

theorem extractLsb'_zero_append {m n : Nat} (u : BitVec m) (v : BitVec n) (k : Nat) :
    (u ++ v).extractLsb' 0 (k + n) = u.extractLsb' 0 k ++ v := by
  refine BitVec.eq_of_getLsbD_eq fun i hi => ?_
  simp only [BitVec.getLsbD_extractLsb', BitVec.getLsbD_append, Nat.zero_add, decide_eq_true hi, Bool.true_and]
  split
  · rfl
  · rw [decide_eq_true (show i - n < k by omega), Bool.true_and]

/-- The bytes of a Golay(20,8,7) codeword and four 0 bits (40_golay.md R109, R116). -/
theorem bytesOfWord_g2087 (d : Byte) (c : BitVec 12) :
    bytesOfWord ((d ++ c) ++ 0#4) 0 = d ∧ bytesOfWord ((d ++ c) ++ 0#4) 1 = c.extractLsb' 4 8 ∧
    bytesOfWord ((d ++ c) ++ 0#4) 2 = c.extractLsb' 0 4 ++ 0#4 := by
  refine ⟨?_, ?_, ?_⟩
  · exact (BitVec.extractLsb'_append_eq_of_le (by decide)).trans BitVec.extractLsb'_append_eq_left
  · exact (BitVec.extractLsb'_append_eq_of_le (by decide)).trans (BitVec.extractLsb'_append_eq_of_add_le (by decide))
  · refine (extractLsb'_zero_append (d ++ c) 0#4 4).trans ?_
    rw [BitVec.extractLsb'_append_eq_of_add_le (by decide)]

theorem chk12_extract (d : BitVec 8) : (chk12 d).extractLsb' 4 8 = (c11 d).extractLsb' 3 8 ∧
    (chk12 d).extractLsb' 0 4 = (c11 d).extractLsb' 0 3 ++ parity (d ++ c11 d) :=
  ⟨BitVec.extractLsb'_append_eq_of_le (by decide), extractLsb'_zero_append (c11 d) _ 3⟩

/-- G2087_ENC leaves the codeword of its byte in BUF (40_golay.md R116). -/
theorem exec_g2087Enc {s : State} {d : Byte} (h : s.byte? 0 = some d) : ∃ t, exec .g2087Enc s = .next t ∧
    t.Holds 3 (bytesOfWord ((d ++ chk12 d) ++ 0#4)) ∧ SameBytesOutside s t 1 3 ∧ EndsWith s t 0x00 0x0000 := by
  have hholds : s.Holds 1 fun _ => d := fun j hj => by rw [Nat.lt_one_iff.mp hj, h]
  refine ⟨_, execG2087Enc_of_holds hholds, fun j hj => ?_, s.setBytes_sameBytesOutside 1 _ _ _,
    s.setBytes_endsWith 1 _ _ _⟩
  obtain ⟨h0, h1, h2⟩ := bytesOfWord_g2087 d (chk12 d)
  rw [fieldOf_byte, State.complete_byte?, State.setBytes_byte?]
  match j, hj with
  | 0, _ => exact h.trans (congrArg some h0.symm)
  | 1, _ => exact congrArg some h1.symm
  | 2, _ => exact congrArg some h2.symm

/-- Settles O34: the check bits are `c11` and their parity, which is the codeword `exec_g2087Enc` leaves. -/
theorem g2087EncodesSystematically : Obligations.G2087EncodesSystematically := fun s d h => by
  obtain ⟨t, hexec, hholds, hsame, hends⟩ := exec_g2087Enc h
  obtain ⟨-, h1, h2⟩ := bytesOfWord_g2087 d (chk12 d)
  obtain ⟨hc1, hc2⟩ := chk12_extract d
  refine ⟨t, c11 d, parity (d ++ c11 d), hexec, ?_, ?_, ?_, popcount_append_parity_even _, hsame, hends⟩
  · rw [hholds 1 (by decide), h1, hc1]
  · rw [hholds 2 (by decide), h2, hc2]
  · rw [setWidth_append_c11, syn_enc23]

theorem getMsbD_cw24 (d : BitVec 12) {o : Nat} (ho : o < 12) : (cw24 d).getMsbD o = d.getMsbD o := by
  rw [cw24, BitVec.getMsbD_append, if_neg (by omega), enc23, BitVec.getMsbD_append, if_neg (by omega)]

/-- G24128_ENC leaves the codeword of its twelve bits in BUF (40_golay.md R122). -/
theorem exec_g24128Enc {s : State} {b : Nat → Byte} (h : s.Holds 2 b) : ∃ t, exec .g24128Enc s = .next t ∧
    t.Holds 3 (bytesOfWord (cw24 (fieldOf b 0 12))) ∧ SameBytesOutside s t 1 3 ∧ EndsWith s t 0x00 0x0000 := by
  refine ⟨_, execG24128Enc_of_holds h, State.holds_of_bit? fun o ho => ?_, s.setBytes_sameBytesOutside 1 _ _ _,
    s.setBytes_endsWith 1 _ _ _⟩
  have hold (ho : o < 12) : bitOf b o = (cw24 (fieldOf b 0 12)).getMsbD o := by
    rw [getMsbD_cw24 _ ho, fieldOf, getMsbD_readBits, decide_eq_true ho, Bool.true_and, Nat.zero_add]
  rw [bitOf_bytesOfWord _ ho, State.complete_bit?, State.setBytes_bytesOf_bit?]
  by_cases hfirst : o < 8
  · rw [if_neg (by omega), State.bit?, h _ (by omega), ← hold (by omega)]
    rfl
  · rw [if_pos (by omega), bufWrite_apply]
    by_cases hinfo : o < 12
    · rw [if_neg (by omega), bufBit_map_range (by omega), hold hinfo]
    · rw [if_pos (by omega), BitVec.getMsbD_extractLsb', decide_eq_true (show o - 12 < 12 by omega),
        decide_eq_true (show 0 + 12 - (o - 12) ≤ 24 by omega), show 24 - (0 + 12 - (o - 12)) = o by omega]
      rfl

/-- Settles O35: the word left is `cw24`, a codeword of Golay(23,12) and its parity. -/
theorem g24128EncodesSystematically : Obligations.G24128EncodesSystematically := fun s b h => by
  obtain ⟨t, hexec, hholds, hsame, hends⟩ := exec_g24128Enc h
  exact ⟨t, enc23 (fieldOf b 0 12), parity (enc23 (fieldOf b 0 12)), hexec, hholds,
    BitVec.extractLsb'_append_eq_left, syn_enc23 _, popcount_append_parity_even _, hsame, hends⟩

/-- Settles O36: the encoder leaves a codeword, and the decoder returns its word with no bit flipped. -/
theorem golayRoundTrip : Obligations.GolayRoundTrip := by
  refine ⟨fun s d h => ?_, fun s b h => ?_⟩
  · obtain ⟨t, hexec, hholds, -, -⟩ := exec_g2087Enc h
    have hdec := g2087CorrectsThreeErrors t d 0#4 0#24 (by decide) (by rwa [BitVec.xor_zero])
    exact ⟨t, _, hexec, hdec, rfl⟩
  · obtain ⟨t, hexec, hholds, -, -⟩ := exec_g24128Enc h
    have hdec := g24128CorrectsThreeErrors t (fieldOf b 0 12) 0#24 (by decide) (by rwa [BitVec.xor_zero])
    exact ⟨t, _, hexec, hdec, rfl⟩

end Sys2Proof.Machine
end

section
/-! The weights of the Golay codewords (40_golay.md R120). -/

namespace Sys2Proof.Machine

/-- A non-zero codeword of Golay(23,12) has at least seven ones: fewer would make two light patterns of one syndrome. -/
theorem eq_zero_of_syn_eq_zero {v : BitVec 23} (hsyn : syn v = 0) (h : popcount v ≤ 6) : v = 0 := by
  obtain ⟨x, y, rfl, hx, hy⟩ := exists_xor_of_popcount_le (m := 3) (n := 3) h
  rw [syn_xor] at hsyn
  have hxy : syn x = syn y := BitVec.xor_eq_zero_iff.mp hsyn
  rw [← golay23Dec_syn hx, hxy, golay23Dec_syn hy]
  exact BitVec.xor_self

theorem cw24_weight (d : BitVec 12) : cw24 d = 0 ∨ 8 ≤ popcount (cw24 d) := by
  by_cases h : popcount (enc23 d) ≤ 6
  · left
    rw [cw24, eq_zero_of_syn_eq_zero (syn_enc23 d) h]
    decide
  · right
    have heven := popcount_append_parity_even (enc23 d)
    have := popcount_append (enc23 d) (parity (enc23 d))
    rw [cw24]
    omega

/-- Settles O37: the weights from the parity bit and `cw24_weight`, the three values by evaluation. -/
theorem cw24WeightsAndValues : Obligations.Cw24WeightsAndValues :=
  ⟨fun d => ⟨popcount_append_parity_even (enc23 d), cw24_weight d⟩, by decide +kernel⟩

end Sys2Proof.Machine
end

section
/-! GF(2^6) as the powers of its primitive element: products add logarithms, and every element but 0 has an inverse
(41_reed_solomon.md R140 to R143). -/

namespace Sys2Proof.Machine

theorem xor_zero_gf (a : GF64) : a ^^^ 0 = a := BitVec.xor_zero

theorem zero_xor_gf (a : GF64) : 0 ^^^ a = a := BitVec.zero_xor

theorem xor_self_gf (a : GF64) : a ^^^ a = 0 := BitVec.xor_self

theorem xor_xor_cancel_left (a b : GF64) : a ^^^ (a ^^^ b) = b := by
  rw [← BitVec.xor_assoc, xor_self_gf, zero_xor_gf]

theorem gfPow_add (a : GF64) (m n : Nat) : gfPow a (m + n) = gfMul (gfPow a m) (gfPow a n) := by
  induction m with
  | zero => rw [Nat.zero_add, gfPow, one_gfMul]
  | succ m ih => rw [Nat.succ_add, gfPow, gfPow, ih, gfMul_assoc]

theorem gfPow_succ_right (a : GF64) (n : Nat) : gfPow a (n + 1) = gfMul (gfPow a n) a := gfMul_comm ..

theorem one_gfPow (n : Nat) : gfPow 1 n = 1 := by
  induction n with
  | zero => rfl
  | succ n ih => rw [gfPow, ih, gfMul_one]

theorem gfPow_mul (a : GF64) (m n : Nat) : gfPow a (m * n) = gfPow (gfPow a m) n := by
  induction n with
  | zero => rfl
  | succ n ih => rw [Nat.mul_succ, Nat.add_comm, gfPow_add, ih, gfPow]

/-- α generates the non-zero elements: its order divides 63 (41_reed_solomon.md R140). -/
theorem gfPow_alpha_order : gfPow Config.gfAlpha 63 = 1 := by decide +kernel

theorem gfExp_eq_gfPow_of_lt : ∀ i, i < 63 → gfExp i = gfPow Config.gfAlpha i := by decide +kernel

/-- The exponents of `GF_EXP` are taken mod 63 (00_scope.md R13), which is what α's order allows. -/
theorem gfExp_eq_gfPow (i : Nat) : gfExp i = gfPow Config.gfAlpha i := by
  have hmod : gfExp i = gfExp (i % 63) := by rw [gfExp, gfExp, Nat.mod_mod]
  rw [hmod, gfExp_eq_gfPow_of_lt _ (Nat.mod_lt i (by decide))]
  conv_rhs => rw [← Nat.div_add_mod i 63]
  rw [gfPow_add, gfPow_mul, gfPow_alpha_order, one_gfPow, one_gfMul]

theorem gfExp_mod (i : Nat) : gfExp (i % 63) = gfExp i := by rw [gfExp, gfExp, Nat.mod_mod]

theorem gfExp_add (i j : Nat) : gfExp (i + j) = gfMul (gfExp i) (gfExp j) := by
  rw [gfExp_eq_gfPow, gfExp_eq_gfPow, gfExp_eq_gfPow, gfPow_add]

theorem gfPow_gfExp (i m : Nat) : gfPow (gfExp i) m = gfExp (i * m) := by
  rw [gfExp_eq_gfPow, gfExp_eq_gfPow, gfPow_mul]

theorem gfLog?_gfExp : ∀ i, i < 63 → gfLog? (gfExp i) = some i := by decide +kernel

theorem exists_gfExp : ∀ a : GF64, a ≠ 0 → ∃ i, i < 63 ∧ gfExp i = a := by decide +kernel

theorem gfLog?_zero : gfLog? 0 = none := by decide +kernel

/-- Settles O38: a non-zero element is a power of α, and exponents add by `gfExp_add`. -/
theorem fieldProductAddsLogarithms : Obligations.FieldProductAddsLogarithms := by
  refine ⟨fun a b ha hb => ?_, fun a => ⟨zero_gfMul a, gfMul_zero a, one_gfMul a⟩⟩
  obtain ⟨i, hi, rfl⟩ := exists_gfExp a ha
  obtain ⟨j, hj, rfl⟩ := exists_gfExp b hb
  exact ⟨i, j, gfLog?_gfExp i hi, gfLog?_gfExp j hj, by rw [gfExp_mod, gfExp_add]⟩

/-- Settles O39: the tables by evaluation, the powers and their logarithms by `gfExp_eq_gfPow` and `gfLog?_gfExp`. -/
theorem exponentAndLogarithmTables : Obligations.ExponentAndLogarithmTables :=
  ⟨by decide +kernel, fun i hi => ⟨gfExp_eq_gfPow i, gfLog?_gfExp i hi⟩, by decide +kernel⟩

theorem exists_gfInv {a : GF64} (ha : a ≠ 0) : ∃ c, gfInv? a = some c ∧ gfMul a c = 1 := by
  obtain ⟨i, hi, rfl⟩ := exists_gfExp a ha
  refine ⟨gfExp (63 - i), by rw [gfInv?, gfLog?_gfExp i hi, Option.map_some], ?_⟩
  rw [← gfExp_add, Nat.add_sub_of_le hi.le]
  decide +kernel

theorem gfInv?_zero : gfInv? 0 = none := by rw [gfInv?, gfLog?_zero, Option.map_none]

/-- Dividing by b is multiplying by its inverse, whatever the dividend. -/
theorem exists_gfDiv {b : GF64} (hb : b ≠ 0) :
    ∃ q : GF64 → GF64, (∀ a, gfDiv? a b = some (q a)) ∧ ∀ a, gfMul (q a) b = a := by
  obtain ⟨c, hc, hbc⟩ := exists_gfInv hb
  refine ⟨fun a => gfMul a c, fun a => by rw [gfDiv?, hc, Option.map_some], fun a => ?_⟩
  rw [gfMul_assoc, gfMul_comm c, hbc, gfMul_one]

theorem gfMul_right_cancel {a b c : GF64} (hc : c ≠ 0) (h : gfMul a c = gfMul b c) : a = b := by
  obtain ⟨d, -, hcd⟩ := exists_gfInv hc
  rw [← gfMul_one a, ← gfMul_one b, ← hcd, ← gfMul_assoc, ← gfMul_assoc, h]

theorem gfMul_eq_zero_iff {a b : GF64} : gfMul a b = 0 ↔ a = 0 ∨ b = 0 := by
  refine ⟨fun h => or_iff_not_imp_right.mpr fun hb => ?_, ?_⟩
  · exact gfMul_right_cancel hb (h.trans (zero_gfMul b).symm)
  · rintro (rfl | rfl)
    · exact zero_gfMul b
    · exact gfMul_zero a

theorem gfDiv?_of_gfMul {b : GF64} (q : GF64) (hb : b ≠ 0) : gfDiv? (gfMul q b) b = some q := by
  obtain ⟨f, hf, hfb⟩ := exists_gfDiv hb
  rw [hf, gfMul_right_cancel hb (hfb (gfMul q b))]

/-- Settles O40: `exists_gfInv`, and division by it. -/
theorem inversesExist : Obligations.InversesExist :=
  ⟨fun _ => exists_gfInv, gfInv?_zero, fun a _ hb =>
    have ⟨q, hq, hqb⟩ := exists_gfDiv hb
    ⟨q a, hq a, hqb a⟩,
    fun a => by rw [gfDiv?, gfInv?_zero, Option.map_none]⟩

/-- Settles O41: the products of the roots' factors, by evaluation. -/
theorem generatorPolynomials : Obligations.GeneratorPolynomials := by
  unfold Obligations.GeneratorPolynomials
  decide +kernel

theorem gfExp_ne_zero (i : Nat) : gfExp i ≠ 0 := by
  have h : ∀ i, i < 63 → gfExp i ≠ 0 := by decide +kernel
  exact gfExp_mod i ▸ h _ (Nat.mod_lt i (by decide))

theorem gfExp_inj_of_lt {i j : Nat} (hi : i < 63) (hj : j < 63) (h : gfExp i = gfExp j) : i = j :=
  Option.some.inj ((gfLog?_gfExp i hi).symm.trans (h ▸ gfLog?_gfExp j hj))

end Sys2Proof.Machine
end

section
/-! Polynomials over GF(2^6) as lists of coefficients: what the operations of the Reed-Solomon family do to a
polynomial's values, its length and its leading coefficient (41_reed_solomon.md R144, R145, R164). -/

namespace Sys2Proof.Machine

section values

variable (x : GF64)

theorem evalHigh_concat (p : List GF64) (c : GF64) : evalHigh (p ++ [c]) x = gfMul (evalHigh p x) x ^^^ c := by
  rw [evalHigh, List.foldl_append]
  rfl

theorem evalHigh_nil : evalHigh [] x = 0 := rfl

theorem evalHigh_append (p q : List GF64) :
    evalHigh (p ++ q) x = gfMul (evalHigh p x) (gfPow x q.length) ^^^ evalHigh q x := by
  induction q using List.reverseRecOn with
  | nil => rw [List.append_nil, List.length_nil, gfPow, gfMul_one, evalHigh_nil, xor_zero_gf]
  | append_singleton q c ih =>
    rw [← List.append_assoc, evalHigh_concat, evalHigh_concat, ih, List.length_append, List.length_singleton, gfPow,
      gfMul_xor_left, gfMul_assoc, gfMul_comm x, BitVec.xor_assoc]

theorem evalHigh_cons (c : GF64) (p : List GF64) :
    evalHigh (c :: p) x = gfMul c (gfPow x p.length) ^^^ evalHigh p x := by
  have hc : evalHigh [c] x = c := by
    rw [← List.nil_append [c], evalHigh_concat, evalHigh_nil, zero_gfMul, zero_xor_gf]
  rw [← List.singleton_append, evalHigh_append, hc]

theorem evalHigh_replicate_zero (n : Nat) : evalHigh (List.replicate n 0) x = 0 := by
  induction n with
  | zero => rfl
  | succ n ih => rw [List.replicate_succ, evalHigh_cons, ih, zero_gfMul, xor_self_gf]

theorem evalLow_nil : evalLow [] x = 0 := rfl

theorem evalLow_cons (c : GF64) (p : List GF64) : evalLow (c :: p) x = gfMul (evalLow p x) x ^^^ c := by
  rw [evalLow, List.reverse_cons, evalHigh_concat, evalLow]

end values

section addScaled

variable (c : GF64)

theorem length_addScaled (p q : List GF64) : (addScaled c p q).length = p.length := by
  fun_induction addScaled c p q with
  | case1 => rfl
  | case2 => rfl
  | case3 x p y q ih => rw [List.length_cons, List.length_cons, ih]

theorem addScaled_eq_zipWith {p q : List GF64} (h : p.length = q.length) :
    addScaled c p q = List.zipWith (fun x y => x ^^^ gfMul c y) p q := by
  fun_induction addScaled c p q with
  | case1 => rfl
  | case2 => cases h
  | case3 x p y q ih => rw [List.zipWith_cons_cons, ih (Nat.succ.inj h)]

theorem getLast?_addScaled {p q : List GF64} (h : q.length < p.length) :
    (addScaled c p q).getLast? = p.getLast? := by
  fun_induction addScaled c p q with
  | case1 => rfl
  | case2 => rfl
  | case3 x p y q ih =>
    have hq := Nat.lt_of_succ_lt_succ h
    obtain ⟨b, p, rfl⟩ := List.exists_cons_of_length_pos (Nat.zero_lt_of_lt hq)
    rw [List.getLast?_cons, ih hq, List.getLast?_cons_cons, List.getLast?_cons, Option.getD_some]

theorem evalLow_addScaled {p q : List GF64} (h : q.length ≤ p.length) (x : GF64) :
    evalLow (addScaled c p q) x = evalLow p x ^^^ gfMul c (evalLow q x) := by
  fun_induction addScaled c p q with
  | case1 => rw [List.eq_nil_of_length_eq_zero (Nat.le_zero.mp h), evalLow_nil, gfMul_zero, xor_self_gf]
  | case2 => rw [evalLow_nil, gfMul_zero, xor_zero_gf]
  | case3 a p b q ih =>
    rw [evalLow_cons, evalLow_cons, evalLow_cons, ih (Nat.le_of_succ_le_succ h), gfMul_xor_left, gfMul_xor_right,
      gfMul_assoc]
    ac_rfl

/-- Highest degree first, the second polynomial is the one multiplied up to the first one's degree. -/
theorem evalHigh_addScaled {p q : List GF64} (h : q.length ≤ p.length) (x : GF64) : evalHigh (addScaled c p q) x =
    evalHigh p x ^^^ gfMul c (gfMul (evalHigh q x) (gfPow x (p.length - q.length))) := by
  fun_induction addScaled c p q with
  | case1 =>
    rw [List.eq_nil_of_length_eq_zero (Nat.le_zero.mp h), evalHigh_nil, zero_gfMul, gfMul_zero,
      xor_self_gf]
  | case2 => rw [evalHigh_nil, zero_gfMul, gfMul_zero, xor_zero_gf]
  | case3 a p b q ih =>
    have hq := Nat.le_of_succ_le_succ h
    have hpow : gfPow x p.length = gfMul (gfPow x q.length) (gfPow x (p.length - q.length)) := by
      rw [← gfPow_add, Nat.add_sub_of_le hq]
    rw [evalHigh_cons, evalHigh_cons, evalHigh_cons, ih hq, length_addScaled, List.length_cons, List.length_cons,
      Nat.add_sub_add_right, hpow]
    simp only [gfMul_xor_left, gfMul_xor_right, gfMul_assoc]
    ac_rfl

end addScaled

/-! The polynomial with given roots. -/

theorem length_mulRoot (p : List GF64) (r : GF64) : (mulRoot p r).length = p.length + 1 := by
  rw [mulRoot, length_addScaled, List.length_append, List.length_singleton]

theorem evalHigh_mulRoot (p : List GF64) (r x : GF64) : evalHigh (mulRoot p r) x = gfMul (x ^^^ r) (evalHigh p x) := by
  have hlen : (0 :: p).length = (p ++ [0]).length := by rw [List.length_append, List.length_singleton, List.length_cons]
  rw [mulRoot, evalHigh_addScaled r hlen.le, hlen, Nat.sub_self, gfPow, gfMul_one, evalHigh_concat, evalHigh_cons,
    zero_gfMul, zero_xor_gf, xor_zero_gf, gfMul_xor_left, gfMul_comm x]

theorem head?_mulRoot {p : List GF64} {a : GF64} (h : p.head? = some a) (r : GF64) : (mulRoot p r).head? = some a := by
  obtain ⟨q, rfl⟩ := List.head?_eq_some_iff.mp h
  rw [mulRoot, List.cons_append, addScaled, gfMul_zero, xor_zero_gf]
  rfl

theorem length_foldl_mulRoot (roots p : List GF64) : (roots.foldl mulRoot p).length = p.length + roots.length := by
  induction roots generalizing p with
  | nil => rfl
  | cons r roots ih => rw [List.foldl_cons, ih, length_mulRoot, List.length_cons, Nat.add_assoc, Nat.add_comm 1]

theorem head?_foldl_mulRoot (roots : List GF64) {p : List GF64} {a : GF64} (h : p.head? = some a) :
    (roots.foldl mulRoot p).head? = some a := by
  induction roots generalizing p with
  | nil => exact h
  | cons r roots ih => exact ih (head?_mulRoot h r)

theorem evalHigh_foldl_mulRoot_eq_zero_iff (roots p : List GF64) (x : GF64) :
    evalHigh (roots.foldl mulRoot p) x = 0 ↔ evalHigh p x = 0 ∨ x ∈ roots := by
  induction roots generalizing p with
  | nil => simp
  | cons r roots ih =>
    rw [List.foldl_cons, ih, evalHigh_mulRoot, gfMul_eq_zero_iff, List.mem_cons]
    have hr : x ^^^ r = 0 ↔ x = r := BitVec.xor_eq_zero_iff
    rw [hr]
    tauto

/-- The polynomial 1 has no root. -/
theorem evalHigh_one_ne_zero (x : GF64) : evalHigh [1] x ≠ 0 := by
  rw [evalHigh_cons, List.length_nil, gfPow, gfMul_one, evalHigh_nil, xor_zero_gf]
  decide

theorem length_rootsPolynomial (roots : List GF64) : (rootsPolynomial roots).length = roots.length + 1 := by
  rw [rootsPolynomial, List.length_reverse, length_foldl_mulRoot, List.length_singleton, Nat.add_comm]

theorem evalLow_rootsPolynomial_eq_zero_iff (roots : List GF64) (x : GF64) :
    evalLow (rootsPolynomial roots) x = 0 ↔ x ∈ roots := by
  rw [evalLow, rootsPolynomial, List.reverse_reverse, evalHigh_foldl_mulRoot_eq_zero_iff]
  exact or_iff_right (evalHigh_one_ne_zero x)

/-! A polynomial has fewer roots than coefficients: each root divides off a factor. -/

/-- The quotient of a polynomial by x ⊕ root, lowest degree first. -/
def quotientAt (root : GF64) : List GF64 → List GF64
  | [] => []
  | _ :: p => addScaled root p (quotientAt root p)

theorem length_quotientAt (root : GF64) (p : List GF64) : (quotientAt root p).length = p.length - 1 := by
  cases p with
  | nil => rfl
  | cons c p => rw [quotientAt, length_addScaled, List.length_cons, Nat.add_sub_cancel]

theorem evalLow_eq_quotientAt (root : GF64) (p : List GF64) (x : GF64) :
    evalLow p x = gfMul (x ^^^ root) (evalLow (quotientAt root p) x) ^^^ evalLow p root := by
  induction p with
  | nil => rw [quotientAt, evalLow_nil, evalLow_nil, gfMul_zero, xor_self_gf]
  | cons c p ih =>
    have hlen : (quotientAt root p).length ≤ p.length := (length_quotientAt root p).trans_le (Nat.sub_le _ _)
    have hstep : gfMul root (gfMul (x ^^^ root) (evalLow (quotientAt root p) x)) =
        gfMul root (evalLow p x) ^^^ gfMul root (evalLow p root) := by
      conv_rhs => rw [ih]
      rw [gfMul_xor_right root, BitVec.xor_assoc, xor_self_gf, xor_zero_gf]
    have hswap : gfMul (x ^^^ root) (gfMul root (evalLow (quotientAt root p) x)) =
        gfMul root (gfMul (x ^^^ root) (evalLow (quotientAt root p) x)) := by
      rw [← gfMul_assoc, gfMul_comm _ root, gfMul_assoc]
    rw [quotientAt, evalLow_addScaled root hlen, gfMul_xor_right, hswap, hstep, evalLow_cons, evalLow_cons,
      gfMul_xor_left, gfMul_comm root, gfMul_comm root, gfMul_comm x]
    simp only [BitVec.xor_assoc, xor_xor_cancel_left]

theorem getLast?_quotientAt (root c : GF64) {p : List GF64} (hp : p ≠ []) :
    (quotientAt root (c :: p)).getLast? = p.getLast? := by
  have := List.length_pos_of_ne_nil hp
  exact getLast?_addScaled root (by rw [length_quotientAt]; omega)

theorem length_lt_of_roots {p roots : List GF64} {lead : GF64} (hlead : p.getLast? = some lead) (hne : lead ≠ 0)
    (hnodup : roots.Nodup) (hroots : ∀ x ∈ roots, evalLow p x = 0) : roots.length < p.length := by
  induction roots generalizing p with
  | nil => exact List.length_pos_of_ne_nil (by rintro rfl; cases hlead)
  | cons r roots ih =>
    obtain ⟨hr, hnodup⟩ := List.nodup_cons.mp hnodup
    obtain ⟨hpr, hroots⟩ := List.forall_mem_cons.mp hroots
    match p with
    | [] => cases hlead
    | [c] =>
      rw [evalLow_cons, evalLow_nil, zero_gfMul, zero_xor_gf] at hpr
      exact absurd (hpr ▸ Option.some.inj hlead).symm hne
    | c :: d :: p =>
      have hquot := ih (p := quotientAt r (c :: d :: p)) ((getLast?_quotientAt r c (List.cons_ne_nil d p)).trans hlead)
        hnodup fun x hx => by
          have hx0 := hroots x hx
          rw [evalLow_eq_quotientAt r, hpr, xor_zero_gf, gfMul_comm] at hx0
          obtain h | h := gfMul_eq_zero_iff.mp hx0
          · exact h
          · exact absurd (BitVec.xor_eq_zero_iff.mp h ▸ hx) hr
      rw [length_quotientAt] at hquot
      exact Nat.succ_lt_succ hquot

/-! Sums over the symbols of a word: Σ_j e_j ⊗ f(X_j) is `dot e (X.map f)`. -/

theorem dot_nil (p : List GF64) : dot p [] = 0 := by cases p <;> rfl

theorem nil_dot (q : List GF64) : dot [] q = 0 := rfl

theorem dot_comm (p q : List GF64) : dot p q = dot q p := by
  fun_induction dot p q with
  | case1 x p y q ih => rw [dot, gfMul_comm, ih]
  | case2 p q h =>
    cases p with
    | nil => rw [dot_nil]
    | cons x p =>
      cases q with
      | nil => rfl
      | cons y q => exact (h x p y q rfl rfl).elim

theorem dot_addScaled (c : GF64) {p q : List GF64} (h : q.length ≤ p.length) (row : List GF64) :
    dot row (addScaled c p q) = dot row p ^^^ gfMul c (dot row q) := by
  induction row generalizing p q with
  | nil => rw [nil_dot, nil_dot, nil_dot, gfMul_zero, xor_self_gf]
  | cons y row ih =>
    match p, q with
    | [], q => rw [List.eq_nil_of_length_eq_zero (Nat.le_zero.mp h), addScaled, dot_nil, gfMul_zero, xor_self_gf]
    | a :: p, [] => rw [addScaled, dot_nil, gfMul_zero, xor_zero_gf]
    | a :: p, b :: q =>
      rw [addScaled, dot, dot, dot, ih (Nat.le_of_succ_le_succ h)]
      simp only [gfMul_xor_right]
      rw [← gfMul_assoc c y b, gfMul_comm c y, gfMul_assoc]
      ac_rfl

theorem dot_eq_zero {p q : List GF64} (h : ∀ y ∈ q, y = 0) : dot p q = 0 := by
  fun_induction dot p q with
  | case1 x p y q ih =>
    rw [h y List.mem_cons_self, gfMul_zero, ih fun z hz => h z (List.mem_cons_of_mem _ hz), xor_self_gf]
  | case2 => rfl

section sums

variable (e X : List GF64) (f g : GF64 → GF64)

theorem dot_map_xor : dot e (X.map fun x => f x ^^^ g x) = dot e (X.map f) ^^^ dot e (X.map g) := by
  induction X generalizing e with
  | nil => simp only [List.map_nil, dot_nil, xor_self_gf]
  | cons x X ih =>
    cases e with
    | nil => simp only [nil_dot, xor_self_gf]
    | cons c e =>
      simp only [List.map_cons, dot, ih, gfMul_xor_right]
      ac_rfl

theorem dot_map_mul (a : GF64) : dot e (X.map fun x => gfMul a (f x)) = gfMul a (dot e (X.map f)) := by
  induction X generalizing e with
  | nil => simp only [List.map_nil, dot_nil, gfMul_zero]
  | cons x X ih =>
    cases e with
    | nil => exact (gfMul_zero a).symm
    | cons c e =>
      rw [List.map_cons, List.map_cons, dot, dot, ih, gfMul_xor_right, ← gfMul_assoc, gfMul_comm c, gfMul_assoc]

end sums

/-- A sum whose terms are 0 at every location but x is the term at x. -/
theorem dot_map_eq_term {e X : List GF64} {f : GF64 → GF64} {c x : GF64} (hnodup : X.Nodup) (hmem : (c, x) ∈ e.zip X)
    (hzero : ∀ d y, (d, y) ∈ e.zip X → y ≠ x → gfMul d (f y) = 0) : dot e (X.map f) = gfMul c (f x) := by
  have vanish : ∀ {e X : List GF64}, (∀ d y, (d, y) ∈ e.zip X → gfMul d (f y) = 0) → dot e (X.map f) = 0 := by
    intro e X h
    induction X generalizing e with
    | nil => exact dot_nil e
    | cons y X ih =>
      cases e with
      | nil => rfl
      | cons d e =>
        rw [List.map_cons, dot, h d y List.mem_cons_self, ih fun d y hy => h d y (List.mem_cons_of_mem _ hy),
          xor_self_gf]
  induction X generalizing e with
  | nil => cases e <;> cases hmem
  | cons y X ih =>
    cases e with
    | nil => cases hmem
    | cons d e =>
      obtain ⟨hy, hnodup⟩ := List.nodup_cons.mp hnodup
      have htail : ∀ d y, (d, y) ∈ e.zip X → y ≠ x → gfMul d (f y) = 0 := fun d y hdy =>
        hzero d y (List.mem_cons_of_mem _ hdy)
      rw [List.map_cons, dot]
      obtain hhead | hmem := List.mem_cons.mp hmem
      · obtain ⟨rfl, rfl⟩ := Prod.mk.inj hhead
        rw [vanish fun d z hdz => htail d z hdz fun hz => hy (hz ▸ (List.of_mem_zip hdz).2), xor_zero_gf]
      · have hne : y ≠ x := fun h => hy (h ▸ (List.of_mem_zip hmem).2)
        rw [hzero d y List.mem_cons_self hne, ih hnodup hmem htail, zero_xor_gf]

/-- Power sums weighted by a polynomial's coefficients are one sum of the polynomial's values. -/
theorem dot_powerSums {e X L s : List GF64} {g : GF64 → GF64}
    (hs : ∀ l, l < L.length → s[l]? = some (dot e (X.map fun x => gfMul (gfPow x l) (g x)))) :
    dot L s = dot e (X.map fun x => gfMul (evalLow L x) (g x)) := by
  induction L generalizing s g with
  | nil =>
    have hzero := dot_map_mul e X (fun _ => 0) 0
    simp only [zero_gfMul] at hzero
    simp only [evalLow_nil, zero_gfMul, hzero]
    rfl
  | cons a L ih =>
    match s, hs 0 (Nat.succ_pos _) with
    | s0 :: s, h0 =>
      have htail := ih (s := s) (g := fun x => gfMul x (g x)) fun l hl => by
        rw [← List.getElem?_cons_succ (a := s0), hs (l + 1) (Nat.succ_lt_succ hl)]
        simp only [gfPow_succ_right, gfMul_assoc]
      have hhead : s0 = dot e (X.map g) := by simpa only [gfPow, one_gfMul] using Option.some.inj h0
      rw [dot, htail, hhead, ← dot_map_mul, ← dot_map_xor]
      simp only [evalLow_cons, gfMul_xor_left, gfMul_assoc, BitVec.xor_comm]

end Sys2Proof.Machine
end

section
/-! The Reed-Solomon codes: a word's syndromes are power sums of its symbols at the locations X_j, so that a polynomial
with given roots picks out one symbol of a light word (41_reed_solomon.md R144, R164). -/

namespace Sys2Proof.Machine

/-- The codes whose locations are distinct: no longer than the field has non-zero elements (41_reed_solomon.md R144). -/
structure RsCode.Fits (code : RsCode) : Prop where
  k_le_n : code.k ≤ code.n
  n_le : code.n ≤ 63

theorem eq_of_mem_rsFamily {code : RsCode} {d e : Instr} (h : (code, d, e) ∈ rsFamily) :
    (code = rs24121 ∧ d = .rs24121Dec ∧ e = .rs24121Enc) ∨ (code = rs24169 ∧ d = .rs24169Dec ∧ e = .rs24169Enc) ∨
      (code = rs362017 ∧ d = .rs362017Dec ∧ e = .rs362017Enc) := by
  simpa only [rsFamily, List.mem_cons, List.not_mem_nil, or_false, Prod.mk.injEq] using h

theorem fits_of_mem_rsFamily {code : RsCode} {d e : Instr} (h : (code, d, e) ∈ rsFamily) : code.Fits := by
  obtain ⟨rfl, -⟩ | ⟨rfl, -⟩ | ⟨rfl, -⟩ := eq_of_mem_rsFamily h <;> exact ⟨by decide, by decide⟩

theorem RsCode.Fits.k_add_r {code : RsCode} (h : code.Fits) : code.k + code.r = code.n := Nat.add_sub_of_le h.k_le_n

theorem RsCode.two_mul_t_le (code : RsCode) : 2 * code.t ≤ code.r := by
  simp only [RsCode.t, RsCode.r]
  omega

/-! Codewords and syndromes are linear. -/

theorem RsCode.isCodeword_iff {code : RsCode} {word : List GF64} :
    code.isCodeword word = true ↔ word.length = code.n ∧ ∀ x ∈ code.roots, evalHigh word x = 0 := by
  simp [RsCode.isCodeword, RsCode.syndromes]

theorem RsCode.length_of_isCodeword {code : RsCode} {word : List GF64} (h : code.isCodeword word = true) :
    word.length = code.n := (RsCode.isCodeword_iff.mp h).1

theorem evalHigh_addScaled_of_length_eq {p q : List GF64} (h : p.length = q.length) (c x : GF64) :
    evalHigh (addScaled c p q) x = evalHigh p x ^^^ gfMul c (evalHigh q x) := by
  rw [evalHigh_addScaled c h.ge, h, Nat.sub_self, gfPow, gfMul_one]

theorem RsCode.isCodeword_addScaled {code : RsCode} {a b : List GF64} (c : GF64) (ha : code.isCodeword a = true)
    (hb : code.isCodeword b = true) : code.isCodeword (addScaled c a b) = true := by
  obtain ⟨halen, ha⟩ := RsCode.isCodeword_iff.mp ha
  obtain ⟨hblen, hb⟩ := RsCode.isCodeword_iff.mp hb
  refine RsCode.isCodeword_iff.mpr ⟨(length_addScaled c a b).trans halen, fun x hx => ?_⟩
  rw [evalHigh_addScaled_of_length_eq (halen.trans hblen.symm), ha x hx, hb x hx, gfMul_zero, xor_self_gf]

/-- Taking a codeword away does not change the syndromes. -/
theorem RsCode.syndromes_addScaled {code : RsCode} {word b : List GF64} (c : GF64) (hword : word.length = code.n)
    (hb : code.isCodeword b = true) : code.syndromes (addScaled c word b) = code.syndromes word := by
  obtain ⟨hblen, hb⟩ := RsCode.isCodeword_iff.mp hb
  refine List.map_congr_left fun x hx => ?_
  rw [evalHigh_addScaled_of_length_eq (hword.trans hblen.symm), hb x hx, gfMul_zero, xor_zero_gf]

/-! The locations, and the syndromes as power sums. -/

/-- α^(n−1), …, α, 1: the locations X_j of n symbols (41_reed_solomon.md R164). -/
def locationsOf (n : Nat) : List GF64 := (List.range n).map fun j => gfExp (n - 1 - j)

theorem RsCode.locations_eq (code : RsCode) : code.locations = locationsOf code.n := rfl

theorem length_locationsOf (n : Nat) : (locationsOf n).length = n := by
  rw [locationsOf, List.length_map, List.length_range]

theorem locationsOf_succ (n : Nat) : locationsOf (n + 1) = gfExp n :: locationsOf n := by
  rw [locationsOf, List.range_succ_eq_map, List.map_cons, List.map_map]
  refine congrArg₂ _ rfl (List.map_congr_left fun j _ => congrArg gfExp ?_)
  simp only [Nat.succ_eq_add_one]
  omega

theorem nodup_locations {code : RsCode} (h : code.Fits) : code.locations.Nodup := by
  have hn := h.n_le
  refine List.Nodup.map_on (fun i hi j hj hij => ?_) List.nodup_range
  rw [List.mem_range] at hi hj
  have := gfExp_inj_of_lt (by omega) (by omega) hij
  omega

theorem ne_zero_of_mem_locations {code : RsCode} {x : GF64} (h : x ∈ code.locations) : x ≠ 0 := by
  obtain ⟨j, -, rfl⟩ := List.mem_map.mp h
  exact gfExp_ne_zero _

/-- The value at α^m is the m-th power sum of the symbols at their locations. -/
theorem evalHigh_gfExp (word : List GF64) (m : Nat) :
    evalHigh word (gfExp m) = dot word ((locationsOf word.length).map fun x => gfPow x m) := by
  induction word with
  | nil => rfl
  | cons c word ih =>
    rw [evalHigh_cons, ih, List.length_cons, locationsOf_succ, List.map_cons, dot, gfPow_gfExp, gfPow_gfExp,
      Nat.mul_comm]

theorem RsCode.syndromes_getElem? {code : RsCode} {word : List GF64} {i : Nat} (hword : word.length = code.n)
    (hi : i < code.r) : (code.syndromes word)[i]? =
      some (dot word (code.locations.map fun x => gfMul (gfPow x i) x)) := by
  rw [RsCode.syndromes, RsCode.roots, List.getElem?_map, List.getElem?_map, List.getElem?_range hi, Option.map_some,
    Option.map_some, evalHigh_gfExp, hword, RsCode.locations_eq]
  simp only [Config.rsFcr, Nat.add_comm 1, gfPow_succ_right]

/-! Errors: the locations where a word is not zero. -/

/-- The locations of a word's non-zero symbols. -/
def RsCode.errorLocations (code : RsCode) (e : List GF64) : List GF64 :=
  ((e.zip code.locations).filter fun p => p.1 != 0).map Prod.snd

theorem RsCode.mem_errorLocations {code : RsCode} {e : List GF64} {x : GF64} :
    x ∈ code.errorLocations e ↔ ∃ c, (c, x) ∈ e.zip code.locations ∧ c ≠ 0 := by
  simp [RsCode.errorLocations]

/-- Two words differ where their sum is not zero. -/
theorem distance_eq_countP {a b : List GF64} (h : a.length = b.length) :
    distance a b = (addScaled 1 a b).countP fun c => c != 0 := by
  have hterm (x : GF64 × GF64) : (x.1 != x.2) = (x.1 ^^^ gfMul 1 x.2 != 0) := by
    have : x.1 ^^^ x.2 = 0 ↔ x.1 = x.2 := BitVec.xor_eq_zero_iff
    rw [one_gfMul, bne, bne, Bool.beq_eq_decide_eq, Bool.beq_eq_decide_eq, decide_eq_decide.mpr this]
  rw [addScaled_eq_zipWith 1 h, ← List.map_uncurry_zip_eq_zipWith, List.countP_map, distance]
  exact List.countP_congr fun x _ => by rw [hterm]; rfl

theorem RsCode.length_errorLocations {code : RsCode} {a b : List GF64} (ha : a.length = code.n)
    (hb : b.length = code.n) : (code.errorLocations (addScaled 1 a b)).length = distance a b := by
  have hzip : ((addScaled 1 a b).zip code.locations).map Prod.fst = addScaled 1 a b :=
    List.map_fst_zip (by rw [length_addScaled, ha, RsCode.locations_eq, length_locationsOf])
  rw [distance_eq_countP (ha.trans hb.symm), RsCode.errorLocations, List.length_map, ← List.countP_eq_length_filter]
  conv_rhs => rw [← hzip, List.countP_map]
  rfl

theorem length_filter_ne_lt {T : List GF64} {x : GF64} (hx : x ∈ T) : (T.filter fun y => y != x).length < T.length := by
  refine List.length_filter_lt_length_iff_exists.mpr ⟨x, hx, by simp⟩

theorem mem_filter_ne {T : List GF64} {x y : GF64} (hy : y ∈ T) (hne : y ≠ x) : y ∈ T.filter fun y => y != x :=
  List.mem_filter.mpr ⟨hy, bne_iff_ne.mpr hne⟩

theorem not_mem_filter_ne (T : List GF64) (x : GF64) : x ∉ T.filter fun y => y != x := fun h =>
  bne_iff_ne.mp (List.mem_filter.mp h).2 rfl

/-- The polynomial that vanishes at a word's other non-zero locations picks out the term at x. -/
theorem dot_isolate {code : RsCode} (hfit : code.Fits) {e others : List GF64} {c x : GF64} (g : GF64 → GF64)
    (hmem : (c, x) ∈ e.zip code.locations) (hothers : ∀ y ∈ code.errorLocations e, y ≠ x → y ∈ others) :
    dot e (code.locations.map fun y => gfMul (evalLow (rootsPolynomial others) y) (g y)) =
      gfMul c (gfMul (evalLow (rootsPolynomial others) x) (g x)) := by
  refine dot_map_eq_term (f := fun y => gfMul (evalLow (rootsPolynomial others) y) (g y)) (nodup_locations hfit) hmem
    fun d y hdy hne => ?_
  by_cases hd : d = 0
  · rw [hd, zero_gfMul]
  · have hy := hothers y (RsCode.mem_errorLocations.mpr ⟨d, hdy, hd⟩) hne
    rw [(evalLow_rootsPolynomial_eq_zero_iff others y).mpr hy, zero_gfMul, gfMul_zero]

/-- The symbol at x from the syndromes, when fewer than n−k other locations can be non-zero (R164). -/
theorem dot_rootsPolynomial_syndromes {code : RsCode} (hfit : code.Fits) {e others : List GF64} {c x : GF64}
    (he : e.length = code.n) (hlen : others.length < code.r) (hmem : (c, x) ∈ e.zip code.locations)
    (hothers : ∀ y ∈ code.errorLocations e, y ≠ x → y ∈ others) :
    dot (rootsPolynomial others) (code.syndromes e) = gfMul c (gfMul (evalLow (rootsPolynomial others) x) x) := by
  rw [← dot_isolate hfit (fun y => y) hmem hothers]
  exact dot_powerSums fun l hl => RsCode.syndromes_getElem? he (by rw [length_rootsPolynomial] at hl; omega)

theorem eq_of_distance_eq_zero {a b : List GF64} (hlen : a.length = b.length) (h : distance a b = 0) : a = b := by
  rw [distance, List.countP_eq_zero] at h
  refine List.ext_getElem hlen fun i hi hi' => ?_
  have hmem : (a[i], b[i]) ∈ a.zip b := by
    rw [← List.getElem_zip (h := by rw [List.length_zip]; omega)]
    exact List.getElem_mem _
  simpa using h _ hmem

/-- A codeword with at most n−k non-zero symbols has none: the syndromes would show it. -/
theorem RsCode.eq_of_distance_le {code : RsCode} (hfit : code.Fits) {a b : List GF64} (ha : code.isCodeword a = true)
    (hb : code.isCodeword b = true) (h : distance a b ≤ code.r) : a = b := by
  have halen := RsCode.length_of_isCodeword ha
  have hblen := RsCode.length_of_isCodeword hb
  refine eq_of_distance_eq_zero (halen.trans hblen.symm) (Nat.eq_zero_of_not_pos fun hpos => ?_)
  rw [← RsCode.length_errorLocations halen hblen] at h hpos
  obtain ⟨x, hx⟩ := List.exists_mem_of_length_pos hpos
  obtain ⟨c, hmem, hc⟩ := RsCode.mem_errorLocations.mp hx
  have helen := (length_addScaled 1 a b).trans halen
  have hsyn := (RsCode.isCodeword_iff.mp (RsCode.isCodeword_addScaled 1 ha hb)).2
  have hothers := length_filter_ne_lt hx
  have hdot := dot_rootsPolynomial_syndromes hfit helen (hothers.trans_le h) hmem fun _ => mem_filter_ne
  rw [dot_eq_zero fun s hs => by obtain ⟨y, hy, rfl⟩ := List.mem_map.mp hs; exact hsyn y hy] at hdot
  obtain hc0 | hx0 := gfMul_eq_zero_iff.mp hdot.symm
  · exact hc hc0
  · obtain hroot | hx0 := gfMul_eq_zero_iff.mp hx0
    · exact not_mem_filter_ne _ x ((evalLow_rootsPolynomial_eq_zero_iff _ x).mp hroot)
    · exact ne_zero_of_mem_locations (List.of_mem_zip hmem).2 hx0

/-- Settles O43: closer codewords are equal, by `RsCode.eq_of_distance_le`. -/
theorem rsMinimumDistance : Obligations.RsMinimumDistance := fun _ _ _ hmem _ _ ha hb hne =>
  Nat.lt_of_not_le fun h => hne (RsCode.eq_of_distance_le (fits_of_mem_rsFamily hmem) ha hb h)

end Sys2Proof.Machine
end

section
/-! Systematic encoding: the remainder by the generator makes the word vanish at the generator's roots
(41_reed_solomon.md R145, R148, R152). -/

namespace Sys2Proof.Machine

theorem length_divRem (tail : List GF64) (steps : Nat) (p : List GF64) :
    (divRem tail steps p).length = p.length - steps := by
  fun_induction divRem tail steps p with
  | case1 => rfl
  | case2 => simp
  | case3 steps a p ih => rw [ih, length_addScaled, List.length_cons, Nat.add_sub_add_right]

/-- Each step of the division takes away a multiple of the monic divisor, which vanishes at x. -/
theorem evalHigh_divRem {tail : List GF64} {x : GF64} (hx : evalHigh (1 :: tail) x = 0) {steps : Nat} {p : List GF64}
    (h : steps + tail.length ≤ p.length) : evalHigh (divRem tail steps p) x = evalHigh p x := by
  have htail : evalHigh tail x = gfPow x tail.length := by
    rw [evalHigh_cons, one_gfMul] at hx
    exact (BitVec.xor_eq_zero_iff.mp hx).symm
  fun_induction divRem tail steps p with
  | case1 => rfl
  | case2 => rfl
  | case3 steps a p ih =>
    rw [List.length_cons] at h
    have hlen : tail.length ≤ p.length := by omega
    rw [ih (by rw [length_addScaled]; omega), evalHigh_addScaled a hlen, htail, ← gfPow_add, Nat.add_sub_of_le hlen,
      evalHigh_cons, BitVec.xor_comm]

theorem RsCode.generator_eq (code : RsCode) : code.generator = 1 :: code.generator.drop 1 := by
  obtain ⟨tail, htail⟩ := List.head?_eq_some_iff.mp (head?_foldl_mulRoot code.roots (p := [1]) rfl)
  rw [RsCode.generator, htail]
  rfl

theorem RsCode.length_generator_tail (code : RsCode) : (code.generator.drop 1).length = code.r := by
  rw [List.length_drop, RsCode.generator, length_foldl_mulRoot, List.length_singleton, Nat.add_sub_cancel_left,
    RsCode.roots, List.length_map, List.length_range]

theorem RsCode.evalHigh_generator {code : RsCode} {x : GF64} (h : x ∈ code.roots) :
    evalHigh (1 :: code.generator.drop 1) x = 0 := by
  rw [← code.generator_eq]
  exact (evalHigh_foldl_mulRoot_eq_zero_iff code.roots [1] x).mpr (.inr h)

section encode

variable {code : RsCode} {data : List GF64}

theorem RsCode.length_parity (h : data.length = code.k) : (code.parity data).length = code.r := by
  rw [RsCode.parity, length_divRem, List.length_append, List.length_replicate, h, Nat.add_sub_cancel_left]

theorem RsCode.encode_take (h : data.length = code.k) : (code.encode data).take code.k = data := by
  rw [RsCode.encode, ← h, List.take_left]

/-- Data times x^(n−k) and its remainder by the generator have one value at each root, and cancel (R148). -/
theorem RsCode.isCodeword_encode (hfit : code.Fits) (h : data.length = code.k) :
    code.isCodeword (code.encode data) = true := by
  have hlen : (code.encode data).length = code.n := by
    rw [RsCode.encode, List.length_append, RsCode.length_parity h, h, hfit.k_add_r]
  refine RsCode.isCodeword_iff.mpr ⟨hlen, fun x hx => ?_⟩
  have hpar : evalHigh (code.parity data) x = evalHigh (data ++ List.replicate code.r 0) x :=
    evalHigh_divRem (RsCode.evalHigh_generator hx) (by
      rw [RsCode.length_generator_tail, List.length_append, List.length_replicate, h])
  rw [RsCode.encode, evalHigh_append, RsCode.length_parity h, hpar, evalHigh_append, List.length_replicate,
    evalHigh_replicate_zero, xor_zero_gf, xor_self_gf]

theorem distance_append (a b c d : List GF64) (h : a.length = b.length) :
    distance (a ++ c) (b ++ d) = distance a b + distance c d := by
  rw [distance, List.zip_append h, List.countP_append, distance, distance]

theorem distance_self (a : List GF64) : distance a a = 0 := by
  induction a with
  | nil => rfl
  | cons x a ih => rw [← List.singleton_append, distance_append _ _ _ _ rfl, ih]; simp [distance]

theorem distance_le_length (a b : List GF64) : distance a b ≤ a.length :=
  List.countP_le_length.trans (List.length_zip.trans_le (Nat.min_le_left ..))

/-- Two codewords that begin alike differ in at most the n−k symbols after that, so they are one. -/
theorem RsCode.eq_encode (hfit : code.Fits) (h : data.length = code.k) {c : List GF64}
    (hc : code.isCodeword c = true) (htake : c.take code.k = data) : c = code.encode data := by
  refine RsCode.eq_of_distance_le hfit hc (RsCode.isCodeword_encode hfit h) ?_
  rw [← List.take_append_drop code.k c, htake, RsCode.encode, distance_append _ _ _ _ rfl, distance_self, Nat.zero_add]
  refine (distance_le_length _ _).trans_eq ?_
  rw [List.length_drop, RsCode.length_of_isCodeword hc, RsCode.r]

end encode

/-- Settles O42: `RsCode.encode_take`, `RsCode.isCodeword_encode` and, for uniqueness, the minimum distance. -/
theorem encodedWordIsTheSystematicCodeword : Obligations.EncodedWordIsTheSystematicCodeword :=
  fun _ _ _ hmem _ h => have hfit := fits_of_mem_rsFamily hmem
    ⟨RsCode.encode_take h, RsCode.isCodeword_encode hfit h, fun _ hc htake => RsCode.eq_encode hfit h hc htake⟩

/-- Settles O47: a combination of two encoded words is the codeword that begins with the combination of their data, so
it is that combination encoded. -/
theorem rsParityIsLinear : Obligations.RsParityIsLinear := by
  intro code _ _ hmem a b c ha hb
  have hfit := fits_of_mem_rsFamily hmem
  have hab := ha.trans hb.symm
  have hpar := (RsCode.length_parity ha).trans (RsCode.length_parity hb).symm
  rw [← addScaled_eq_zipWith c hab, ← addScaled_eq_zipWith c hpar]
  have hsplit : addScaled c (code.encode a) (code.encode b) =
      addScaled c a b ++ addScaled c (code.parity a) (code.parity b) := by
    have hlens : (a ++ code.parity a).length = (b ++ code.parity b).length := by
      rw [List.length_append, List.length_append, hab, hpar]
    rw [RsCode.encode, RsCode.encode, addScaled_eq_zipWith c hlens,
      List.zipWith_append hab, addScaled_eq_zipWith c hab, addScaled_eq_zipWith c hpar]
  have hlen := (length_addScaled c a b).trans ha
  have hword := RsCode.eq_encode hfit hlen
    (RsCode.isCodeword_addScaled c (RsCode.isCodeword_encode hfit ha) (RsCode.isCodeword_encode hfit hb))
    (by rw [hsplit, ← hlen, List.take_left])
  rw [hsplit] at hword
  exact (List.append_cancel_left hword).symm

end Sys2Proof.Machine
end

section
/-! The locator by linear algebra: from t+1 monic polynomials of rising degree, each of t orthogonality conditions drops
one at most, so that one is left (41_reed_solomon.md R164). -/

namespace Sys2Proof.Machine

/-- Monic polynomials, lowest degree first, of strictly rising degree. -/
structure Staircase (ps : List (List GF64)) : Prop where
  rising : ps.Pairwise fun p q => p.length < q.length
  monic : ∀ p ∈ ps, p.getLast? = some 1

/-- The polynomials `qs` are what is left of `ps` when each of `rows` drops one of them at most and makes the others
orthogonal to itself. -/
structure ReducedBy (rows ps qs : List (List GF64)) : Prop where
  staircase : Staircase qs
  count : ps.length ≤ qs.length + rows.length
  orthogonal : ∀ row ∈ rows, ∀ q ∈ qs, dot row q = 0
  keeps : ∀ row, (∀ p ∈ ps, dot row p = 0) → ∀ q ∈ qs, dot row q = 0
  lengths : ∀ q ∈ qs, ∃ p ∈ ps, q.length = p.length

theorem ReducedBy.trans {rows rows' ps qs us : List (List GF64)} (h : ReducedBy rows ps qs)
    (h' : ReducedBy rows' qs us) : ReducedBy (rows ++ rows') ps us where
  staircase := h'.staircase
  count := by
    have := h.count
    have := h'.count
    rw [List.length_append]
    omega
  orthogonal row hrow :=
    (List.mem_append.mp hrow).elim (fun hr => h'.keeps row (h.orthogonal row hr)) (h'.orthogonal row)
  keeps row hps := h'.keeps row (h.keeps row hps)
  lengths u hu := by
    obtain ⟨q, hq, huq⟩ := h'.lengths u hu
    obtain ⟨p, hp, hqp⟩ := h.lengths q hq
    exact ⟨p, hp, huq.trans hqp⟩

theorem mapM_eq_some_map {α β : Type} {f : α → Option β} {g : α → β} {l : List α} (h : ∀ a ∈ l, f a = some (g a)) :
    l.mapM f = some (l.map g) := by
  induction l with
  | nil => rfl
  | cons a l ih =>
    obtain ⟨ha, hl⟩ := List.forall_mem_cons.mp h
    rw [List.mapM_cons, ha, ih hl]
    rfl

/-- The first polynomial that is not orthogonal to the row clears the ones after it, and is dropped. -/
theorem orthogonalTo_of_ne {row p : List GF64} {ps : List (List GF64)} (h : dot row p ≠ 0) : ∃ q : GF64 → GF64,
    (∀ a, gfMul (q a) (dot row p) = a) ∧
    orthogonalTo row (p :: ps) = some (ps.map fun f => addScaled (q (dot row f)) f p) := by
  obtain ⟨q, hq, hqp⟩ := exists_gfDiv h
  refine ⟨q, hqp, ?_⟩
  rw [orthogonalTo, if_neg h]
  exact mapM_eq_some_map fun f _ => by rw [hq, Option.map_some]

/-- Taking multiples of the least polynomial away from the others leaves their lengths and leading coefficients. -/
theorem reducedBy_addScaled {row p : List GF64} {ps : List (List GF64)} {q : GF64 → GF64}
    (hq : ∀ a, gfMul (q a) (dot row p) = a) (h : Staircase (p :: ps)) :
    ReducedBy [row] (p :: ps) (ps.map fun f => addScaled (q (dot row f)) f p) := by
  obtain ⟨hlt, hrising⟩ := List.pairwise_cons.mp h.rising
  have hmem : ∀ {P : List GF64 → Prop}, (∀ f ∈ ps, P (addScaled (q (dot row f)) f p)) →
      ∀ u ∈ ps.map fun f => addScaled (q (dot row f)) f p, P u := fun hP => List.forall_mem_map.mpr hP
  refine ⟨⟨List.pairwise_map.mpr ?_, hmem fun f hf => ?_⟩, ?_, ?_, fun row' hrow' => hmem fun f hf => ?_,
    hmem fun f hf => ?_⟩
  · simpa only [length_addScaled] using hrising
  · rw [getLast?_addScaled _ (hlt f hf), h.monic f (List.mem_cons_of_mem _ hf)]
  · rw [List.length_map, List.length_cons, List.length_singleton]
  · refine List.forall_mem_singleton.mpr (hmem fun f hf => ?_)
    rw [dot_addScaled _ (hlt f hf).le, hq, xor_self_gf]
  · rw [dot_addScaled _ (hlt f hf).le, hrow' f (List.mem_cons_of_mem _ hf), hrow' p List.mem_cons_self, gfMul_zero,
      xor_self_gf]
  · exact ⟨f, List.mem_cons_of_mem _ hf, length_addScaled ..⟩

theorem ReducedBy.cons {row p : List GF64} {ps qs : List (List GF64)} (hp : dot row p = 0) (hps : Staircase (p :: ps))
    (h : ReducedBy [row] ps qs) : ReducedBy [row] (p :: ps) (p :: qs) where
  staircase := by
    refine ⟨List.pairwise_cons.mpr ⟨fun q hq => ?_, h.staircase.rising⟩,
      List.forall_mem_cons.mpr ⟨hps.monic p List.mem_cons_self, h.staircase.monic⟩⟩
    obtain ⟨f, hf, hqf⟩ := h.lengths q hq
    exact ((List.pairwise_cons.mp hps.rising).1 f hf).trans_eq hqf.symm
  count := by
    have := h.count
    simp only [List.length_cons] at this ⊢
    omega
  orthogonal := List.forall_mem_singleton.mpr
    (List.forall_mem_cons.mpr ⟨hp, h.orthogonal row List.mem_cons_self⟩)
  keeps row' hrow' := List.forall_mem_cons.mpr
    ⟨hrow' p List.mem_cons_self, h.keeps row' fun f hf => hrow' f (List.mem_cons_of_mem _ hf)⟩
  lengths := List.forall_mem_cons.mpr ⟨⟨p, List.mem_cons_self, rfl⟩, fun q hq =>
    have ⟨f, hf, hqf⟩ := h.lengths q hq
    ⟨f, List.mem_cons_of_mem _ hf, hqf⟩⟩

theorem exists_orthogonalTo (row : List GF64) {ps : List (List GF64)} (h : Staircase ps) :
    ∃ qs, orthogonalTo row ps = some qs ∧ ReducedBy [row] ps qs := by
  induction ps with
  | nil => exact ⟨[], rfl, h, Nat.zero_le _, fun _ _ _ hq => absurd hq List.not_mem_nil,
      fun _ _ _ hq => absurd hq List.not_mem_nil, fun _ hq => absurd hq List.not_mem_nil⟩
  | cons p ps ih =>
    by_cases hp : dot row p = 0
    · obtain ⟨qs, hqs, hred⟩ := ih
        ⟨(List.pairwise_cons.mp h.rising).2, fun f hf => h.monic f (List.mem_cons_of_mem _ hf)⟩
      exact ⟨p :: qs, by rw [orthogonalTo, if_pos hp, hqs, Option.map_some], hred.cons hp h⟩
    · obtain ⟨q, hq, heq⟩ := orthogonalTo_of_ne (ps := ps) hp
      exact ⟨_, heq, reducedBy_addScaled hq h⟩

theorem exists_foldl_orthogonalTo (rows : List (List GF64)) {ps : List (List GF64)} (h : Staircase ps) :
    ∃ qs, rows.foldl (fun found row => found.bind (orthogonalTo row)) (some ps) = some qs ∧ ReducedBy rows ps qs := by
  induction rows generalizing ps with
  | nil => exact ⟨ps, rfl, h, Nat.le_refl _, fun _ hrow => absurd hrow List.not_mem_nil, fun _ hps => hps,
      fun q hq => ⟨q, hq, rfl⟩⟩
  | cons row rows ih =>
    obtain ⟨qs, hqs, hred⟩ := exists_orthogonalTo row h
    obtain ⟨us, hus, hred'⟩ := ih hred.staircase
    exact ⟨us, by rw [List.foldl_cons, Option.bind_some, hqs, hus], hred.trans hred'⟩

theorem length_monomial (d : Nat) : (monomial d).length = d + 1 := by
  rw [monomial, List.length_append, List.length_replicate, List.length_singleton]

theorem staircase_monomials (n : Nat) : Staircase ((List.range n).map monomial) where
  rising := List.pairwise_map.mpr <| List.pairwise_lt_range.imp fun h => by
    rw [length_monomial, length_monomial]
    exact Nat.succ_lt_succ h
  monic := List.forall_mem_map.mpr fun _ _ => List.getLast?_concat ..

/-- The locator search never fails: t conditions on t+1 polynomials. -/
theorem RsCode.exists_locator (code : RsCode) (syndromes : List GF64) : ∃ loc, code.locator syndromes = some loc ∧
    loc.getLast? = some 1 ∧ loc.length ≤ code.t + 1 ∧ ∀ i, i < code.t → dot (syndromes.drop i) loc = 0 := by
  obtain ⟨qs, hqs, hred⟩ := exists_foldl_orthogonalTo ((List.range code.t).map fun i => syndromes.drop i)
    (staircase_monomials (code.t + 1))
  have hcount := hred.count
  simp only [List.length_map, List.length_range] at hcount
  obtain ⟨loc, us, rfl⟩ := List.exists_cons_of_length_pos (l := qs) (by omega)
  have hmem : loc ∈ loc :: us := List.mem_cons_self
  obtain ⟨p, hp, hlen⟩ := hred.lengths loc hmem
  obtain ⟨d, hd, rfl⟩ := List.mem_map.mp hp
  refine ⟨loc, by rw [RsCode.locator, hqs]; rfl, hred.staircase.monic loc hmem, ?_, fun i hi =>
    hred.orthogonal _ (List.mem_map.mpr ⟨i, List.mem_range.mpr hi, rfl⟩) loc hmem⟩
  rw [hlen, length_monomial]
  exact List.mem_range.mp hd

end Sys2Proof.Machine
end

section
/-! Bounded-distance decoding: the locator vanishes at every error, and the error values take the errors away
(41_reed_solomon.md R160, R164). -/

namespace Sys2Proof.Machine

/-- The i-th condition on a locator says that one sum over the errors is 0. -/
theorem RsCode.dot_drop_syndromes {code : RsCode} {e loc : List GF64} {i : Nat} (he : e.length = code.n)
    (hlen : i + loc.length ≤ code.r) : dot ((code.syndromes e).drop i) loc =
      dot e (code.locations.map fun y => gfMul (gfPow y i) (gfMul (evalLow loc y) y)) := by
  rw [dot_comm, dot_powerSums (e := e) (X := code.locations) (g := fun y => gfMul (gfPow y i) y) fun l hl => ?_]
  · simp only [← gfMul_assoc, gfMul_comm (evalLow loc _)]
  · rw [List.getElem?_drop, RsCode.syndromes_getElem? he (by omega)]
    simp only [Nat.add_comm i, gfPow_add, gfMul_assoc]

/-- With at most t errors, the locator's t conditions make it vanish at each of them. -/
theorem RsCode.locator_vanishes {code : RsCode} (hfit : code.Fits) {e loc : List GF64} (he : e.length = code.n)
    (hloc : loc.length ≤ code.t + 1) (horth : ∀ i, i < code.t → dot ((code.syndromes e).drop i) loc = 0)
    (herr : (code.errorLocations e).length ≤ code.t) {x : GF64} (hx : x ∈ code.errorLocations e) :
    evalLow loc x = 0 := by
  obtain ⟨c, hmem, hc⟩ := RsCode.mem_errorLocations.mp hx
  have hr := code.two_mul_t_le
  have hothers := length_filter_ne_lt hx
  have hsum : dot e (code.locations.map fun y => gfMul (evalLow (rootsPolynomial ((code.errorLocations e).filter
      fun y => y != x)) y) (gfMul (evalLow loc y) y)) = 0 := by
    rw [← dot_powerSums (s := List.replicate code.t 0) fun l hl => ?_]
    · exact dot_eq_zero fun y => List.eq_of_mem_replicate
    · rw [length_rootsPolynomial] at hl
      rw [← RsCode.dot_drop_syndromes he (by omega), horth l (by omega), List.getElem?_replicate, if_pos (by omega)]
  rw [dot_isolate hfit (fun y => gfMul (evalLow loc y) y) hmem fun _ => mem_filter_ne] at hsum
  obtain h | h := gfMul_eq_zero_iff.mp ((gfMul_eq_zero_iff.mp hsum).resolve_left hc)
  · exact absurd ((evalLow_rootsPolynomial_eq_zero_iff _ x).mp h) (not_mem_filter_ne _ x)
  · exact (gfMul_eq_zero_iff.mp h).resolve_right (ne_zero_of_mem_locations (List.of_mem_zip hmem).2)

/-- The error value at a root is the error's, when the roots hold every error and are at most n−k. -/
theorem errorValue_eq {code : RsCode} (hfit : code.Fits) {e roots : List GF64} {c x : GF64} (he : e.length = code.n)
    (hlen : roots.length ≤ code.r) (hmem : (c, x) ∈ e.zip code.locations) (hx : x ∈ roots)
    (herr : ∀ y ∈ code.errorLocations e, y ∈ roots) : errorValue (code.syndromes e) roots x = some c := by
  have hdot := dot_rootsPolynomial_syndromes hfit he ((length_filter_ne_lt hx).trans_le hlen) hmem
    fun y hy => mem_filter_ne (herr y hy)
  have hroot : evalLow (rootsPolynomial (roots.filter fun y => y != x)) x ≠ 0 := fun h =>
    not_mem_filter_ne roots x ((evalLow_rootsPolynomial_eq_zero_iff _ x).mp h)
  have hne := mt gfMul_eq_zero_iff.mp (not_or.mpr ⟨hroot, ne_zero_of_mem_locations (List.of_mem_zip hmem).2⟩)
  have hpow : gfPow x Config.rsFcr = x := gfMul_one x
  simp only [errorValue]
  rw [hdot, hpow, gfMul_comm x, gfDiv?_of_gfMul c hne]

theorem mapM_eq_some_of_zip {α β : Type} {f : α → Option β} {l : List α} {l' : List β} (hlen : l.length = l'.length)
    (h : ∀ a b, (a, b) ∈ l.zip l' → f a = some b) : l.mapM f = some l' := by
  induction l generalizing l' with
  | nil => rw [List.eq_nil_of_length_eq_zero hlen.symm]; rfl
  | cons a l ih =>
    match l' with
    | b :: l' =>
      rw [List.mapM_cons, h a b List.mem_cons_self,
        ih (Nat.succ.inj hlen) fun a b hab => h a b (List.mem_cons_of_mem _ hab)]
      rfl

/-- A symbol received, its location and the symbol sent make an error and its location. -/
theorem mem_zip_addScaled {word c X : List GF64} {r x s : GF64} (h : ((r, x), s) ∈ (word.zip X).zip c) :
    (r ^^^ s, x) ∈ (addScaled 1 word c).zip X := by
  induction word generalizing c X with
  | nil => cases h
  | cons r' word ih =>
    match X, c with
    | [], _ => cases h
    | _ :: _, [] => cases h
    | x' :: X, s' :: c =>
      obtain hhead | htail := List.mem_cons.mp h
      · cases hhead
        rw [addScaled, one_gfMul]
        exact List.mem_cons_self
      · exact List.mem_cons_of_mem _ (ih htail)

/-- The roots of a locator among the transmitted positions, which the Chien search finds (41_reed_solomon.md R164). -/
def RsCode.chienRoots (code : RsCode) (loc : List GF64) : List GF64 :=
  code.locations.filter fun x => evalLow loc x == 0

theorem RsCode.mem_chienRoots {code : RsCode} {loc : List GF64} {x : GF64} :
    x ∈ code.chienRoots loc ↔ x ∈ code.locations ∧ evalLow loc x = 0 := by
  rw [RsCode.chienRoots, List.mem_filter, beq_iff_eq]

theorem RsCode.length_chienRoots_lt {code : RsCode} (hfit : code.Fits) {loc : List GF64}
    (hmonic : loc.getLast? = some 1) : (code.chienRoots loc).length < loc.length :=
  length_lt_of_roots hmonic (by decide) ((nodup_locations hfit).filter _) fun _ hx => (RsCode.mem_chienRoots.mp hx).2

theorem RsCode.candidate_of_locator {code : RsCode} {word loc : List GF64}
    (h : code.locator (code.syndromes word) = some loc) :
    code.candidate word = (word.zip code.locations).mapM fun p => if p.2 ∈ code.chienRoots loc then
      (errorValue (code.syndromes word) (code.chienRoots loc) p.2).map fun e => p.1 ^^^ e else some p.1 := by
  simp only [RsCode.candidate, h, Option.bind_eq_bind, Option.bind_some]
  rfl

/-- The candidate is the codeword within t of the word. -/
theorem RsCode.candidate_eq {code : RsCode} (hfit : code.Fits) {word c : List GF64} (hword : word.length = code.n)
    (hc : code.isCodeword c = true) (hdist : distance word c ≤ code.t) : code.candidate word = some c := by
  have hclen := RsCode.length_of_isCodeword hc
  have helen := (length_addScaled 1 word c).trans hword
  have hsyn := RsCode.syndromes_addScaled 1 hword hc
  obtain ⟨loc, hloc, hmonic, hlen, horth⟩ := code.exists_locator (code.syndromes word)
  have herr : ∀ x ∈ code.errorLocations (addScaled 1 word c), x ∈ code.chienRoots loc := fun x hx => by
    obtain ⟨d, hmem, -⟩ := RsCode.mem_errorLocations.mp hx
    exact RsCode.mem_chienRoots.mpr ⟨(List.of_mem_zip hmem).2, RsCode.locator_vanishes hfit helen hlen (by rwa [hsyn])
      ((RsCode.length_errorLocations hword hclen).trans_le hdist) hx⟩
  have hroots : (code.chienRoots loc).length ≤ code.r := by
    have := RsCode.length_chienRoots_lt hfit hmonic
    have := code.two_mul_t_le
    omega
  have hlocs : code.locations.length = code.n := length_locationsOf code.n
  rw [RsCode.candidate_of_locator hloc]
  refine mapM_eq_some_of_zip (by rw [List.length_zip, hword, hlocs, hclen, Nat.min_self]) ?_
  rintro ⟨r, x⟩ s hmem
  have hmem := mem_zip_addScaled hmem
  by_cases hx : x ∈ code.chienRoots loc
  · rw [if_pos hx, ← hsyn, errorValue_eq hfit helen hroots hmem hx herr, Option.map_some, xor_xor_cancel_left]
  · have hrs : r ^^^ s = 0 := by_contra fun h => hx (herr x (RsCode.mem_errorLocations.mpr ⟨_, hmem, h⟩))
    rw [if_neg hx, BitVec.xor_eq_zero_iff.mp hrs]

/-- Bounded-distance decoding (41_reed_solomon.md R160). -/
theorem RsCode.decode_eq_some_iff {code : RsCode} (hfit : code.Fits) {word c : List GF64}
    (hword : word.length = code.n) : code.decode word = some c ↔ code.isCodeword c = true ∧ distance word c ≤ code.t := by
  refine ⟨RsCode.decode_some, fun h => ?_⟩
  rw [RsCode.decode, RsCode.candidate_eq hfit hword h.1 h.2, Option.bind_some, if_pos h]

/-- Settles O44: the decoder checks its answer, and its candidate is the codeword within t by `RsCode.candidate_eq`. -/
theorem rsDecodeIsBoundedDistance : Obligations.RsDecodeIsBoundedDistance := fun _ _ _ hmem _ _ hlen =>
  RsCode.decode_eq_some_iff (fits_of_mem_rsFamily hmem) hlen

end Sys2Proof.Machine
end

section
/-! The symbols of BUF: six bits each, the first of them the most significant of BUF[0] (41_reed_solomon.md R146). -/

namespace Sys2Proof.Machine

/-- Bit o of a run of symbols. -/
def symbolBit (c : List GF64) (o : Nat) : Bool := (c.getD (o / 6) 0).getMsbD (o % 6)

/-- The bytes that a run of symbols fills, as a function of the index. -/
def bytesOfSymbols (c : List GF64) (j : Nat) : Byte := readBits (symbolBit c) (8 * j) 8

theorem bitOf_bytesOfSymbols (c : List GF64) (o : Nat) : bitOf (bytesOfSymbols c) o = symbolBit c o := by
  rw [bitOf, bytesOfSymbols, getMsbD_readBits, Nat.div_add_mod, decide_eq_true (Nat.mod_lt o (by decide)),
    Bool.true_and]

theorem length_symbolsOf (b : Nat → Byte) (m : Nat) : (symbolsOf b m).length = m := by
  rw [symbolsOf, List.length_map, List.length_range]

theorem symbolsOf_congr {b b' : Nat → Byte} {m : Nat} (h : ∀ o, o < 6 * m → bitOf b o = bitOf b' o) :
    symbolsOf b m = symbolsOf b' m :=
  List.map_congr_left fun j hj => readBits_congr fun k hk => h _ (by have := List.mem_range.mp hj; omega)

theorem symbolBit_symbolsOf {b : Nat → Byte} {m o : Nat} (ho : o < 6 * m) :
    symbolBit (symbolsOf b m) o = bitOf b o := by
  have hj : o / 6 < m := by omega
  rw [symbolBit, List.getD, symbolsOf, List.getElem?_map, List.getElem?_range hj, Option.map_some, Option.getD_some,
    fieldOf, getMsbD_readBits, Nat.div_add_mod, decide_eq_true (Nat.mod_lt o (by decide)), Bool.true_and]

theorem symbolsOf_bytesOfSymbols {word : List GF64} {m : Nat} (h : m ≤ word.length) :
    symbolsOf (bytesOfSymbols word) m = word.take m := by
  refine List.ext_getElem ((length_symbolsOf _ m).trans (List.length_take_of_le h).symm) fun j hj _ => ?_
  rw [length_symbolsOf] at hj
  have hsymbol : fieldOf (bytesOfSymbols word) (6 * j) 6 = word[j] :=
    (readBits_congr fun k hk => by
      rw [bitOf_bytesOfSymbols, symbolBit, show (6 * j + k) / 6 = j by omega, show (6 * j + k) % 6 = 0 + k by omega,
        List.getD_eq_getElem word 0 (hj.trans_le h)]).trans (readBits_getMsbD _)
  simpa only [symbolsOf, List.getElem_map, List.getElem_range, List.getElem_take] using hsymbol

theorem symbolBit_take {c : List GF64} {m o : Nat} (ho : o < 6 * m) : symbolBit (c.take m) o = symbolBit c o := by
  rw [symbolBit, symbolBit, List.getD, List.getD, List.getElem?_take_of_lt (by omega)]

/-- The first m symbols of some bytes fill those bytes again, where they cover them. -/
theorem bytesOfSymbols_symbolsOf {b : Nat → Byte} {m j : Nat} (hj : 8 * (j + 1) ≤ 6 * m) :
    bytesOfSymbols (symbolsOf b m) j = b j := by
  refine (readBits_congr (bit' := (b j).getMsbD) (o' := 0) fun k hk => ?_).trans (readBits_getMsbD (b j))
  rw [symbolBit_symbolsOf (by omega), bitOf, show (8 * j + k) / 8 = j by omega, show (8 * j + k) % 8 = 0 + k by omega]

/-- Writing a word's symbols from the j-th on gives the word's bits there. -/
theorem writeSymbols_drop {bit : Nat → Bool} {c : List GF64} {j o : Nat} (hlow : 6 * j ≤ o) (hhigh : o < 6 * c.length) :
    writeSymbols bit j (c.drop j) o = symbolBit c o := by
  rw [writeSymbols_apply, List.length_drop, if_pos (by omega), symbolBit, List.getD, List.getD, List.getElem?_drop,
    show j + (o - 6 * j) / 6 = o / 6 by omega]

theorem State.Holds.bit? {s : State} {n o : Nat} {b : Nat → Byte} (h : s.Holds n b) (ho : o < 8 * n) :
    s.bit? o = some (bitOf b o) := by
  rw [State.bit?, h _ (by omega), Option.map_some, bitOf]

theorem State.Holds.symbolsOf_eq {s : State} {n m : Nat} {b b' : Nat → Byte} (h : s.Holds n b) (h' : s.Holds n b')
    (hm : 6 * m ≤ 8 * n) : symbolsOf b m = symbolsOf b' m :=
  symbolsOf_congr fun _ ho => Option.some.inj ((h.bit? (ho.trans_le hm)).symm.trans (h'.bit? (ho.trans_le hm)))

/-- Where BUF holds given symbols, it holds the bytes those symbols came from. -/
theorem State.Holds.of_symbolsOf_eq {s : State} {n m : Nat} {b b' : Nat → Byte} (h : s.Holds n b')
    (hsym : symbolsOf b' m = symbolsOf b m) (hn : 8 * n ≤ 6 * m) : s.Holds n b := fun j hj => by
  have hj8 : 8 * (j + 1) ≤ 6 * m := by omega
  rw [h j hj, ← bytesOfSymbols_symbolsOf (b := b') hj8, hsym, bytesOfSymbols_symbolsOf hj8]

theorem State.setBytes_bytesOf_sameBytesOutside (s : State) (bit : Nat → Bool) (first count : Nat) (st : Byte)
    (r : Half) :
    SameBytesOutside s ((s.setBytes first (bytesOf bit first count)).complete st r) first (first + count) := by
  have h := s.setBytes_sameBytesOutside first (bytesOf bit first count) st r
  rwa [bytesOf_length] at h

end Sys2Proof.Machine
end

section
/-! The Reed-Solomon commands: what they write to BUF, RESULT and STATUS (41_reed_solomon.md R149 to R151, R161 to
R169). -/

namespace Sys2Proof.Machine

section commands

variable {code : RsCode} {d e : Instr} (hmem : (code, d, e) ∈ rsFamily)

include hmem

/-- Data and parity symbols fill whole bytes (41_reed_solomon.md R147). -/
theorem symbols_fill_bytes : 8 * (6 * code.k / 8) = 6 * code.k ∧ 8 * (6 * code.r / 8) = 6 * code.r ∧
    8 * (6 * code.n / 8) = 6 * code.n := by
  obtain ⟨rfl, -⟩ | ⟨rfl, -⟩ | ⟨rfl, -⟩ := eq_of_mem_rsFamily hmem <;> decide

theorem operandBytes_rsEnc (s : State) : operandBytes e s = 6 * code.k / 8 := by
  obtain ⟨rfl, -, rfl⟩ | ⟨rfl, -, rfl⟩ | ⟨rfl, -, rfl⟩ := eq_of_mem_rsFamily hmem <;> rfl

variable {s : State} {b : Nat → Byte}

theorem exec_rsDec (h : s.Holds (6 * code.n / 8) b) :
    exec d s = .next (rsDecodeBytes code s ((List.range (6 * code.n / 8)).map b)) := by
  obtain ⟨rfl, rfl, -⟩ | ⟨rfl, rfl, -⟩ | ⟨rfl, rfl, -⟩ := eq_of_mem_rsFamily hmem
  · exact execRs24121Dec_of_holds h
  · exact execRs24169Dec_of_holds h
  · exact execRs362017Dec_of_holds h

theorem exec_rsEnc (h : s.Holds (6 * code.k / 8) b) :
    exec e s = .next (rsEncodeBytes code s ((List.range (6 * code.k / 8)).map b)) := by
  obtain ⟨rfl, -, rfl⟩ | ⟨rfl, -, rfl⟩ | ⟨rfl, -, rfl⟩ := eq_of_mem_rsFamily hmem
  · exact execRs24121Enc_of_holds h
  · exact execRs24169Enc_of_holds h
  · exact execRs362017Enc_of_holds h

/-- A decoder near a codeword writes the codeword's data bytes and the number of errors (R161, R162). -/
theorem exec_rsDec_near (h : s.Holds (6 * code.n / 8) b) {c : List GF64} (hc : code.isCodeword c = true)
    (hdist : distance (symbolsOf b code.n) c ≤ code.t) : ∃ t, exec d s = .next t ∧
      t.Holds (6 * code.k / 8) (bytesOfSymbols c) ∧ symbolsOf (bytesOfSymbols c) code.k = c.take code.k ∧
      SameBytesOutside s t 0 (6 * code.k / 8) ∧
      EndsWith s t 0x00 (BitVec.ofNat 16 (distance (symbolsOf b code.n) c)) := by
  have hfit := fits_of_mem_rsFamily hmem
  have hk := hfit.k_le_n
  have hlen := RsCode.length_of_isCodeword hc
  have hread := readSymbols_map_range (b := b) (symbols_fill_bytes hmem).2.2.ge
  have hdec : code.decode (readSymbols ((List.range (6 * code.n / 8)).map b) code.n) = some c := by
    rw [hread]
    exact (RsCode.decode_eq_some_iff hfit (length_symbolsOf b code.n)).mpr ⟨hc, hdist⟩
  refine ⟨_, exec_rsDec hmem h, ?_⟩
  rw [rsDecodeBytes_of_decode hdec, hread]
  refine ⟨State.holds_of_bit? fun o ho => ?_, symbolsOf_bytesOfSymbols (hk.trans_eq hlen.symm), ?_,
    s.setBytes_endsWith 0 _ _ _⟩
  · have hdata := writeSymbols_drop (bit := bufBit ((List.range (6 * code.n / 8)).map b)) (c := c.take code.k)
      (j := 0) (o := o) (Nat.zero_le o)
      (by rw [List.length_take_of_le (hk.trans_eq hlen.symm)]; omega)
    rw [List.drop_zero] at hdata
    rw [State.complete_bit?, State.setBytes_bytesOf_bit?, if_pos (by omega), hdata, symbolBit_take (by omega),
      bitOf_bytesOfSymbols]
  · simpa only [Nat.zero_add] using s.setBytes_bytesOf_sameBytesOutside _ 0 (6 * code.k / 8) _ _

/-- A decoder far from every codeword sets FAIL and leaves BUF (R163). -/
theorem exec_rsDec_far (h : s.Holds (6 * code.n / 8) b)
    (hfar : ¬ ∃ c, code.isCodeword c = true ∧ distance (symbolsOf b code.n) c ≤ code.t) :
    exec d s = .next { s with status := 0x02, result := 0x0000 } := by
  have hfail : code.decode (readSymbols ((List.range (6 * code.n / 8)).map b) code.n) = none := by
    rw [readSymbols_map_range (symbols_fill_bytes hmem).2.2.ge]
    exact Option.eq_none_iff_forall_not_mem.mpr fun c hc => hfar ⟨c, RsCode.decode_some hc⟩
  rw [exec_rsDec hmem h, rsDecodeBytes_of_fail hfail]
  rfl

/-- An encoder leaves the codeword of its data symbols in BUF (R148). -/
theorem exec_rsEnc_codeword (h : s.Holds (6 * code.k / 8) b) : ∃ t, exec e s = .next t ∧
    t.Holds (6 * code.n / 8) (bytesOfSymbols (code.encode (symbolsOf b code.k))) ∧
    SameBytesOutside s t (6 * code.k / 8) (6 * code.n / 8) ∧ EndsWith s t 0x00 0x0000 := by
  have hfit := fits_of_mem_rsFamily hmem
  obtain ⟨hk, hr, hn⟩ := symbols_fill_bytes hmem
  have hsum := hfit.k_add_r
  have hdata := length_symbolsOf b code.k
  have hlen := RsCode.length_of_isCodeword (RsCode.isCodeword_encode hfit hdata)
  refine ⟨_, exec_rsEnc hmem h, ?_⟩
  rw [rsEncodeBytes, readSymbols_map_range hk.ge, statusNone_eq]
  refine ⟨State.holds_of_bit? fun o ho => ?_, ?_, s.setBytes_endsWith _ _ _ _⟩
  · rw [State.complete_bit?, State.setBytes_bytesOf_bit?, bitOf_bytesOfSymbols]
    by_cases hlow : o < 6 * code.k
    · rw [if_neg (by omega), h.bit? (by omega), ← symbolBit_take hlow, RsCode.encode_take hdata,
        symbolBit_symbolsOf hlow]
    · rw [if_pos (by omega), writeSymbols_drop (by omega) (by omega)]
  · rw [show 6 * code.n / 8 = 6 * code.k / 8 + 6 * code.r / 8 by omega]
    exact s.setBytes_bytesOf_sameBytesOutside _ _ _ _ _

/-- The symbols an encoder leaves are its data symbols encoded. -/
theorem symbolsOf_encoded (b : Nat → Byte) : symbolsOf (bytesOfSymbols (code.encode (symbolsOf b code.k))) code.n =
    code.encode (symbolsOf b code.k) := by
  have hlen := RsCode.length_of_isCodeword
    (RsCode.isCodeword_encode (fits_of_mem_rsFamily hmem) (length_symbolsOf b code.k))
  rw [symbolsOf_bytesOfSymbols hlen.ge, ← hlen, List.take_length]

end commands

theorem exec_next_holds {i : Instr} {s t : State} (h : exec i s = .next t) : ∃ b, s.Holds (operandBytes i s) b := by
  obtain ⟨bs, hlen, hbytes, -⟩ | ⟨j, -, hfault⟩ := exec_cases i s
  · exact ⟨fun j => bs.getD j 0, fun j hj => by
      have hj' : j < bs.length := hj.trans_eq hlen.symm
      exact (hbytes j hj).trans ((List.getElem?_eq_getElem hj').trans
        (congrArg some (List.getD_eq_getElem bs 0 hj').symm))⟩
  · rw [hfault] at h
    cases h

/-- Settles O45: `exec_rsDec_near` and `exec_rsDec_far`, by whether a codeword lies within t. -/
theorem rsDecodeCommands : Obligations.RsDecodeCommands := fun _ _ _ hmem _ _ h =>
  ⟨fun c hc hdist => have ⟨t, ht⟩ := exec_rsDec_near hmem h hc hdist
    ⟨t, bytesOfSymbols c, ht⟩,
    or_iff_not_imp_left.mpr (exec_rsDec_far hmem h)⟩

/-- Settles O46: the word left is the systematic codeword of the data symbols. -/
theorem rsEncodeCommands : Obligations.RsEncodeCommands := fun code _ _ hmem s b h => by
  obtain ⟨t, hexec, hholds, hsame, hends⟩ := exec_rsEnc_codeword hmem h
  refine ⟨t, _, hexec, hholds, ?_, hsame, hends⟩
  rw [symbolsOf_encoded hmem]
  exact RsCode.isCodeword_encode (fits_of_mem_rsFamily hmem) (length_symbolsOf b code.k)

theorem EndsWith.outputs {s t : State} {st : Byte} {r : Half} (h : EndsWith s t st r) :
    t.status = st ∧ t.result = r := by
  rw [EndsWith] at h
  exact ⟨congrArg State.status h, congrArg State.result h⟩

/-- With at most t symbols of an encoded word changed, decoding restores the data bytes (41_reed_solomon.md R169). -/
theorem rsDec_restores_encoded {code : RsCode} {d e : Instr} (hmem : (code, d, e) ∈ rsFamily) {s t u : State}
    {b b' : Nat → Byte} (henc : exec e s = .next t) (ht : t.Holds (6 * code.n / 8) b) (hu : u.Holds (6 * code.n / 8) b')
    (hdist : distance (symbolsOf b' code.n) (symbolsOf b code.n) ≤ code.t) : ∃ v, exec d u = .next v ∧
      v.Holds (6 * code.k / 8) b ∧ v.status = 0x00 ∧
      v.result = BitVec.ofNat 16 (distance (symbolsOf b' code.n) (symbolsOf b code.n)) := by
  obtain ⟨hk, -, hn⟩ := symbols_fill_bytes hmem
  obtain ⟨data, hdata⟩ := exec_next_holds henc
  rw [operandBytes_rsEnc hmem] at hdata
  obtain ⟨t', ht', hholds, -, -⟩ := exec_rsEnc_codeword hmem hdata
  cases henc.symm.trans ht'
  have hword : symbolsOf b code.n = code.encode (symbolsOf data code.k) :=
    (ht.symbolsOf_eq hholds hn.ge).trans (symbolsOf_encoded hmem data)
  have hcode : code.isCodeword (symbolsOf b code.n) = true :=
    hword ▸ RsCode.isCodeword_encode (fits_of_mem_rsFamily hmem) (length_symbolsOf data code.k)
  obtain ⟨v, hdec, hv, hsym, -, hends⟩ := exec_rsDec_near hmem hu hcode hdist
  refine ⟨v, hdec, hv.of_symbolsOf_eq (hsym.trans ?_) hk.le, hends.outputs⟩
  rw [symbolsOf, ← List.map_take, List.take_range, Nat.min_eq_left (fits_of_mem_rsFamily hmem).k_le_n, symbolsOf]

/-- Settles O48: the round trip is the case of no symbol changed of `rsDec_restores_encoded`; detection is
`exec_rsDec_far`. -/
theorem rsRoundTripCorrectionDetection : Obligations.RsRoundTripCorrectionDetection := by
  intro code d e hmem
  have failSet : (0x02 : Byte).getLsbD 1 = true := by decide
  refine ⟨fun s b h => ?_, fun s t u b b' henc ht hu hdist => rsDec_restores_encoded hmem henc ht hu hdist,
    fun s b h => or_iff_not_imp_left.mpr fun hfar => ⟨_, exec_rsDec_far hmem h hfar, failSet, fun _ => rfl⟩⟩
  obtain ⟨hk, -, hn⟩ := symbols_fill_bytes hmem
  obtain ⟨t, henc, ht, -, -⟩ := exec_rsEnc_codeword hmem h
  obtain ⟨u, hdec, hu, hstatus, hresult⟩ := rsDec_restores_encoded hmem henc ht ht
    (by rw [distance_self]; exact Nat.zero_le _)
  rw [distance_self] at hresult
  have hdata := length_symbolsOf b code.k
  have hlen := RsCode.length_of_isCodeword (RsCode.isCodeword_encode (fits_of_mem_rsFamily hmem) hdata)
  have hsym : symbolsOf (bytesOfSymbols (code.encode (symbolsOf b code.k))) code.k = symbolsOf b code.k :=
    (symbolsOf_bytesOfSymbols ((fits_of_mem_rsFamily hmem).k_le_n.trans_eq hlen.symm)).trans (RsCode.encode_take hdata)
  exact ⟨t, u, henc, hdec, hstatus, hresult, hu.of_symbolsOf_eq hsym hk.le⟩

/-- Settles O49: the word received differs only in parity symbols from the codeword of its own data symbols, so it is
decoded to that one by `exec_rsDec_near`. -/
theorem rsMiscorrectionExample : Obligations.RsMiscorrectionExample := by
  intro sent received hsent hreceived
  have hmem : (rs24169, .rs24169Dec, .rs24169Enc) ∈ rsFamily := .tail _ (.head _)
  have hdata : (symbolsOf received 16).length = rs24169.k := length_symbolsOf received 16
  have hother := RsCode.isCodeword_encode (fits_of_mem_rsFamily hmem) hdata
  have hnear : distance (symbolsOf received 24) (rs24169.encode (symbolsOf received 16)) = 4 := by
    subst hreceived
    decide +kernel
  have hsent15 : (symbolsOf sent 24)[15]? = some 0x18 := by
    subst hsent
    decide +kernel
  have hother15 : (rs24169.encode (symbolsOf received 16))[15]? = some 0x19 := by
    subst hreceived
    decide +kernel
  refine ⟨?_, ?_, hsent15, fun s h => ?_⟩
  · subst hsent
    decide +kernel
  · subst hsent hreceived
    decide +kernel
  · obtain ⟨t, hexec, hholds, hsym, hsame, hends⟩ := exec_rsDec_near hmem (s := s) (b := received) h hother
      (hnear.trans_le (by decide))
    refine ⟨t, _, hexec, hother, fun heq => ?_, hnear, hother15, ?_, hsame, _, hholds, hsym⟩
    · rw [heq, hsent15] at hother15
      exact absurd hother15 (by decide)
    · rwa [show distance (symbolsOf received rs24169.n) _ = 4 from hnear] at hends

end Sys2Proof.Machine
end

section
/-! The interleave commands (42_interleave.md): w is a permutation of the first N bits, each command takes these bits
through its source and keeps the rest, and two commands with inverse sources undo each other. -/

namespace Sys2Proof.Machine

/-- Reading the wire positions backwards undoes w: row and column of the grid change places twice (R181). -/
theorem logicalBit_wirePosition {n d i : Nat} (h : ilvLegal n d = true) (hi : i < n) :
    logicalBit n d (wirePosition n d i) = i := by
  obtain ⟨-, -, hd, hdvd⟩ := (ilvLegal_iff n d).mp h
  obtain ⟨k, rfl⟩ := Nat.dvd_of_mod_eq_zero hdvd
  have hrow : i / k < d := Nat.div_lt_of_lt_mul (by rwa [Nat.mul_comm])
  rw [logicalBit, wirePosition, Nat.mul_div_cancel_left k hd, Nat.mul_add_mod_of_lt hrow, Nat.mul_comm (i % k),
    Nat.mul_add_div hd, Nat.div_eq_of_lt hrow, Nat.add_zero, Nat.div_add_mod']

/-- With D and R = N/D exchanged, a legal pair stays legal, and `wirePosition` and `logicalBit` change places. -/
theorem ilvLegal_exchange {n d : Nat} (h : ilvLegal n d = true) : ilvLegal n (n / d) = true ∧
    logicalBit n (n / d) = wirePosition n d ∧ wirePosition n (n / d) = logicalBit n d := by
  obtain ⟨hn, hmax, hd, hmod⟩ := (ilvLegal_iff n d).mp h
  have hdvd := Nat.dvd_of_mod_eq_zero hmod
  have hR : n / (n / d) = d := Nat.div_div_self hdvd (Nat.ne_of_gt hn)
  refine ⟨(ilvLegal_iff _ _).mpr ⟨hn, hmax, Nat.div_pos (Nat.le_of_dvd hn hdvd) hd,
    Nat.mod_eq_zero_of_dvd (Nat.div_dvd_of_dvd hdvd)⟩, funext fun i => ?_, funext fun i => ?_⟩
  · rw [logicalBit, hR, wirePosition]
  · rw [wirePosition, hR, logicalBit]

theorem wirePosition_logicalBit {n d p : Nat} (h : ilvLegal n d = true) (hp : p < n) :
    wirePosition n d (logicalBit n d p) = p := by
  obtain ⟨hlegal, hwire, hlogical⟩ := ilvLegal_exchange h
  rw [← hwire, ← hlogical, logicalBit_wirePosition hlegal hp]

/-- Settles O50: w stays below N, and `logicalBit` is its inverse on both sides. -/
theorem wirePositionIsABijection : Obligations.WirePositionIsABijection := by
  refine ⟨fun n d hn hmax hd hdvd => ?_, by decide⟩
  have h : ilvLegal n d = true := (ilvLegal_iff n d).mpr ⟨hn, hmax, hd, hdvd⟩
  refine ⟨fun i => wirePosition_lt h, fun i j hi hj heq => ?_, fun p hp =>
    ⟨logicalBit n d p, logicalBit_lt h hp, wirePosition_logicalBit h hp⟩⟩
  rw [← logicalBit_wirePosition h hi, heq, logicalBit_wirePosition h hj]

theorem State.bit?_eq_none_iff (s : State) (o : Nat) : s.bit? o = none ↔ s.byte? (o / 8) = none :=
  Option.map_eq_none_iff

/-- Equal bits make equal bytes. -/
theorem State.byte?_eq_of_bit?_eq {s t : State} (h : ∀ o, t.bit? o = s.bit? o) (j : Nat) : t.byte? j = s.byte? j := by
  have bit (k : Nat) (hk : k < 8) :
      (t.byte? j).map (fun v => v.getMsbD k) = (s.byte? j).map (fun v => v.getMsbD k) := by
    have := h (8 * j + k)
    rwa [State.bit?, State.bit?, show (8 * j + k) / 8 = j by omega, show (8 * j + k) % 8 = k by omega] at this
  cases hs : s.byte? j with
  | none => simpa only [hs, Option.map_none, Option.map_eq_none_iff] using bit 0 (by decide)
  | some v =>
    simp only [hs, Option.map_some, Option.map_eq_some_iff] at bit
    obtain ⟨u, hu, -⟩ := bit 0 (by decide)
    refine hu.trans (congrArg some (BitVec.eq_of_getMsbD_eq fun k hk => ?_))
    obtain ⟨u', hu', heq⟩ := bit k hk
    rwa [Option.some.inj (hu.symm.trans hu')]

/-- The pair is legal and every bit an interleave command moves is written (R182, 30_encoding.md R76, R80). -/
structure State.IlvReady (s : State) : Prop where
  legal : s.ilvLegal = true
  written : ∀ o, o < s.ilvN.toNat → s.bit? o ≠ none

/-- The bits are written when their bytes are. -/
theorem State.IlvReady.of_written {s : State} {n d : Nat} (hn : s.ilvN.toNat = n) (hd : s.ilvD.toNat = d)
    (hlegal : 1 ≤ n ∧ n ≤ 216 ∧ 1 ≤ d ∧ n % d = 0) (h : ∀ j, j < (n + 7) / 8 → s.byte? j ≠ none) : s.IlvReady := by
  subst hn hd
  exact ⟨(ilvLegal_iff _ _).mpr hlegal, fun o ho hnone => h (o / 8) (by omega) ((s.bit?_eq_none_iff o).mp hnone)⟩

theorem State.IlvReady.exists_holds {s : State} (h : s.IlvReady) : ∃ b, s.Holds s.ilvBytes b := by
  refine ⟨fun j => (s.byte? j).getD 0, fun j (hj : j < (s.ilvN.toNat + 7) / 8) => ?_⟩
  have hbit : s.bit? (8 * j) ≠ none := h.written _ (by omega)
  rw [Ne, State.bit?_eq_none_iff, Nat.mul_div_cancel_left j (by decide)] at hbit
  obtain ⟨v, hv⟩ := Option.ne_none_iff_exists'.mp hbit
  simp only [hv, Option.getD_some]

/-- What an interleave command did: each of the first ILV_N bits was taken through `source`, the others stayed, and
STATUS and RESULT are 0 (R183, R184). -/
structure TakesBits (source : (n d : Nat) → Nat → Nat) (s t : State) : Prop where
  moved : ∀ o, o < s.ilvN.toNat → t.bit? o = s.bit? (source s.ilvN.toNat s.ilvD.toNat o)
  kept : ∀ o, s.ilvN.toNat ≤ o → t.bit? o = s.bit? o
  ends : EndsWith s t 0x00 0x0000

/-- `source` takes no bit from outside the first n, for a legal pair. -/
def StaysInside (source : (n d : Nat) → Nat → Nat) : Prop :=
  ∀ n d o, ilvLegal n d = true → o < n → source n d o < n

section commands

variable {s t : State} {source back : (n d : Nat) → Nat → Nat}

theorem interleaveWith_takesBits (hs : s.IlvReady) (hsource : StaysInside source) :
    ∃ t, interleaveWith source s = .next t ∧ TakesBits source s t := by
  obtain ⟨b, hb⟩ := hs.exists_holds
  have hbytes : s.ilvBytes = (s.ilvN.toNat + 7) / 8 := rfl
  have hread {o : Nat} (ho : o < 8 * s.ilvBytes) : some (bufBit ((List.range s.ilvBytes).map b) o) = s.bit? o := by
    rw [bufBit_map_range ho, hb.bit? ho]
  refine ⟨_, interleaveWith_of_holds hs.legal hb, fun o ho => ?_, fun o ho => ?_, s.setBytes_endsWith 0 _ _ _⟩
  · have hinside := hsource _ _ o hs.legal ho
    rw [State.complete_bit?, State.setBytes_bytesOf_bit?, if_pos (by omega), permuteBits, if_pos ho, hread (by omega)]
  · rw [State.complete_bit?, State.setBytes_bytesOf_bit?]
    split
    · rw [permuteBits, if_neg (by omega), hread (by omega)]
    · rfl

theorem EndsWith.ilv_eq {st : Byte} {r : Half} (h : EndsWith s t st r) : t.ilvN = s.ilvN ∧ t.ilvD = s.ilvD := by
  rw [EndsWith] at h
  rw [h]
  exact ⟨rfl, rfl⟩

/-- After an interleave command the other one can run. -/
theorem TakesBits.ilvReady (h : TakesBits source s t) (hs : s.IlvReady) (hsource : StaysInside source) :
    t.IlvReady := by
  obtain ⟨hn, hd⟩ := h.ends.ilv_eq
  refine ⟨?_, fun o ho => ?_⟩
  · rw [State.ilvLegal, hn, hd]
    exact hs.legal
  · rw [hn] at ho
    rw [h.moved o ho]
    exact hs.written _ (hsource _ _ o hs.legal ho)

/-- Two interleave commands with inverse sources leave BUF as it was. -/
theorem interleaveWith_undoes (hs : s.IlvReady) (hsource : StaysInside source) (hback : StaysInside back)
    (hinv : ∀ n d o, ilvLegal n d = true → o < n → source n d (back n d o) = o) :
    ∃ t u, interleaveWith source s = .next t ∧ interleaveWith back t = .next u ∧ ∀ j, u.byte? j = s.byte? j := by
  obtain ⟨t, hst, ht⟩ := interleaveWith_takesBits hs hsource
  obtain ⟨u, htu, hu⟩ := interleaveWith_takesBits (ht.ilvReady hs hsource) hback
  obtain ⟨hn, hd⟩ := ht.ends.ilv_eq
  have hmoved := hu.moved
  have hkept := hu.kept
  rw [hn, hd] at hmoved
  rw [hn] at hkept
  refine ⟨t, u, hst, htu, State.byte?_eq_of_bit?_eq fun o => ?_⟩
  rcases Nat.lt_or_ge o s.ilvN.toNat with ho | ho
  · rw [hmoved o ho, ht.moved _ (hback _ _ o hs.legal ho), hinv _ _ o hs.legal ho]
  · rw [hkept o ho, ht.kept o ho]

end commands

theorem wirePosition_staysInside : StaysInside wirePosition := fun _ _ _ h ho => wirePosition_lt h ho

theorem logicalBit_staysInside : StaysInside logicalBit := fun _ _ _ h ho => logicalBit_lt h ho

theorem exec_deinterleave (s : State) : exec .deinterleave s = interleaveWith wirePosition s := rfl

theorem exec_interleave (s : State) : exec .interleave s = interleaveWith logicalBit s := rfl

/-- Settles O51: the command's source is w itself. -/
theorem deinterleaveMovesTheBits : Obligations.DeinterleaveMovesTheBits := by
  rintro s n d rfl rfl hn hmax hd hdvd hwritten
  have hs : s.IlvReady := .of_written rfl rfl ⟨hn, hmax, hd, hdvd⟩ hwritten
  obtain ⟨t, ht, hbits⟩ := interleaveWith_takesBits hs wirePosition_staysInside
  exact ⟨t, (exec_deinterleave s).trans ht, hbits.moved, hbits.kept, hbits.ends⟩

/-- Settles O52: bit w(i) is taken from `logicalBit` of w(i), which is i. -/
theorem interleaveMovesTheBits : Obligations.InterleaveMovesTheBits := by
  rintro s n d rfl rfl hn hmax hd hdvd hwritten
  have hs : s.IlvReady := .of_written rfl rfl ⟨hn, hmax, hd, hdvd⟩ hwritten
  obtain ⟨t, ht, hbits⟩ := interleaveWith_takesBits hs logicalBit_staysInside
  refine ⟨t, (exec_interleave s).trans ht, fun i hi => ?_, hbits.kept, hbits.ends⟩
  calc t.bit? (wirePosition s.ilvN.toNat s.ilvD.toNat i)
      = s.bit? (logicalBit _ _ (wirePosition s.ilvN.toNat s.ilvD.toNat i)) :=
        hbits.moved _ (wirePosition_lt hs.legal hi)
    _ = s.bit? i := by rw [logicalBit_wirePosition hs.legal hi]

/-- Settles O53: `wirePosition` and `logicalBit` are inverse to each other, so each order is a case of
`interleaveWith_undoes`. -/
theorem interleaveInverse : Obligations.InterleaveInverse := fun s hn hmax hd hdvd hwritten => by
  have hs : s.IlvReady := .of_written rfl rfl ⟨hn, hmax, hd, hdvd⟩ hwritten
  simp only [exec_interleave, exec_deinterleave]
  exact ⟨interleaveWith_undoes hs logicalBit_staysInside wirePosition_staysInside
      fun _ _ _ h ho => logicalBit_wirePosition h ho,
    interleaveWith_undoes hs wirePosition_staysInside logicalBit_staysInside
      fun _ _ _ h ho => wirePosition_logicalBit h ho⟩

end Sys2Proof.Machine
end

section
/-! The DISPATCH commands (43_dispatch.md): one answer for the three of them, the byte read and its family's entry. -/

namespace Sys2Proof.Machine

/-- Each DISPATCH command is the shared rule at its own family (43_dispatch.md R190). -/
theorem exec_of_mem_dispatchFamilies {i : Instr} {f : Family} (h : (i, f) ∈ dispatchFamilies) (s : State) :
    exec i s = dispatchFamily f s := by
  simp only [dispatchFamilies, List.mem_cons, Prod.mk.injEq, List.not_mem_nil, or_false] at h
  obtain ⟨rfl, rfl⟩ | ⟨rfl, rfl⟩ | ⟨rfl, rfl⟩ := h <;> rfl

/-- The flags and the discriminator make up the byte (43_dispatch.md R191). -/
theorem discFlags_append_discriminator (b : Byte) : discFlags b ++ discriminator b = b := by
  have joined := BitVec.extractLsb'_append_extractLsb'_eq_extractLsb' (x := b) (len₂ := 2) (show 6 = 0 + 6 from rfl)
  exact joined.trans BitVec.extractLsb'_eq_self

/-- The answer of a DISPATCH command (43_dispatch.md R192). -/
theorem exec_dispatch {i : Instr} {f : Family} (hmem : (i, f) ∈ dispatchFamilies) {s : State} {b : Byte}
    (h : s.byte? 0 = some b) :
    exec i s = .next (s.complete (statusHit (Config.discKnown f (discriminator b))) (b.setWidth 16)) := by
  have hholds : s.Holds 1 fun _ => b := fun j hj => by rw [Nat.lt_one_iff.mp hj, h]
  have hwiden : 0x00#8 ++ b = b.setWidth 16 := (BitVec.setWidth_eq_append (by decide)).symm
  rw [exec_of_mem_dispatchFamilies hmem, dispatchFamily_of_holds hholds, fieldOf_first,
    discFlags_append_discriminator, hwiden, statusHit_eq]

/-- HIT is the only flag `statusHit` can set (10_state.md R25). -/
theorem statusHit_flags (known : Bool) : (statusHit known).getLsbD 0 = false ∧
    (statusHit known).getLsbD 1 = false ∧ (statusHit known).getLsbD 2 = known := by
  cases known <;> decide

/-- Settles O54: the answer of `exec_dispatch`, with STATUS as a byte. -/
theorem dispatchReportsTheDiscriminator : Obligations.DispatchReportsTheDiscriminator := by
  intro i f hmem s b h
  rw [exec_dispatch hmem h, statusHit_eq]
  rfl

/-- Settles O55: `exec_dispatch` ends in `State.complete`, which leaves BUF, and STATUS has the flags of
`statusHit_flags`. -/
theorem dispatchCorrectness : Obligations.DispatchCorrectness := by
  rintro i f hmem s b _ h rfl
  obtain ⟨hillegal, hfail, hhit⟩ := statusHit_flags (Config.discKnown f (discriminator b))
  have hresult : (b.setWidth 16).extractLsb' 0 6 = b.extractLsb' 0 6 := BitVec.extractLsb'_setWidth_of_le (by decide)
  exact ⟨_, exec_dispatch hmem h, hhit, hresult, hillegal, hfail, rfl, s.complete_byte? _ _⟩

end Sys2Proof.Machine
end

section
/-! The control rules (44_control.md): NOP, and the two sources of ILLEGAL, each of which ends before BUF is read. -/

namespace Sys2Proof.Machine

theorem exec_nop (s : State) : exec .nop s = execNop s := rfl

/-- Settles O24: NOP is `State.complete` with STATUS and RESULT 0. -/
theorem nopClearsStatusAndResult : Obligations.NopClearsStatusAndResult := fun s =>
  calc exec .nop s = execNop s := exec_nop s
    _ = .next (s.complete 0x00 0x0000) := execNop_eq s

theorem State.ilvLegal_eq_false_iff (s : State) : s.ilvLegal = false ↔
    ¬ (1 ≤ s.ilvN.toNat ∧ s.ilvN.toNat ≤ 216 ∧ 1 ≤ s.ilvD.toNat ∧ s.ilvN.toNat % s.ilvD.toNat = 0) :=
  Bool.eq_false_iff.trans (not_congr (ilvLegal_iff _ _))

/-- An interleave command with an illegal pair signals ILLEGAL before it asks for any byte (42_interleave.md R182). -/
theorem exec_of_ilv_illegal {s : State} {i : Instr} (hi : i = .deinterleave ∨ i = .interleave)
    (h : s.ilvLegal = false) : exec i s = .next (s.complete 0x01 0x0000) := by
  rcases hi with rfl | rfl
  · exact (exec_deinterleave s).trans (interleaveWith_of_illegal h)
  · exact (exec_interleave s).trans (interleaveWith_of_illegal h)

/-- An illegal pair makes the byte of an interleave command an illegal command (44_control.md R202). -/
theorem State.runCommand_of_ilv_illegal (s : State) {i : Instr} (hi : i = .deinterleave ∨ i = .interleave)
    (h : s.ilvLegal = false) :
    s.runCommand (encode i) = .next { s with cmd := encode i, status := 0x01, result := 0x0000 } :=
  (s.runCommand_encode i).trans (exec_of_ilv_illegal (s := { s with cmd := encode i }) hi h)

/-- Settles O6: a byte of no command by `State.runCommand_of_not_encoded`, an illegal pair by
`State.runCommand_of_ilv_illegal`, 0x70 and 0x80 being the bytes of the two interleave commands. -/
theorem illegalCommandsOnlySignal : Obligations.IllegalCommandsOnlySignal := by
  refine ⟨fun s c hc => s.runCommand_of_not_encoded hc, fun s c hc hpair => ?_⟩
  have hillegal : s.ilvLegal = false := s.ilvLegal_eq_false_iff.mpr hpair
  rcases hc with rfl | rfl
  · exact s.runCommand_of_ilv_illegal (.inl rfl) hillegal
  · exact s.runCommand_of_ilv_illegal (.inr rfl) hillegal

end Sys2Proof.Machine
end

section
/-! Reset as a line of the host's program (70_reset_and_hazards.md R230, R231). -/

namespace Sys2Proof.Machine

/-- Settles O11: `step_of_reset` needs nothing of the state but the line, a recorded fault included, so the state
after the step is `State.resetBlock`'s on the next line, read field by field. -/
theorem resetStepResets : Obligations.ResetStepResets := fun s hline =>
  ⟨s.nextLine.resetBlock, step_of_reset hline, s.nextLine.resetBlock_byte?, s.nextLine.resetBlock_cmd,
    s.nextLine.resetBlock_status, s.nextLine.resetBlock_result, s.nextLine.resetBlock_ilvN,
    s.nextLine.resetBlock_ilvD, s.nextLine.resetBlock_faulted, s.nextLine.resetBlock_program,
    s.nextLine.resetBlock_line, s.nextLine.resetBlock_trace⟩

end Sys2Proof.Machine
end
